-- ==== Sys2Proof/Word.lean ====
section
/-! DEFINITION. The words the machine is made of. All values are unsigned (spec/00_scope.md R8, spec/10_state.md R21). -/

namespace Sys2Proof

/-- A register, a memory cell, a byte immediate (R7, R21). -/
abbrev Byte := BitVec 8

/-- An instruction word, PC, I or a stack entry (R7, R24, R23, R25). -/
abbrev Word := BitVec 16

/-- One of the four nibbles of an instruction word (R8): a register index or a row count. -/
abbrev Nibble := BitVec 4

/-- The 12-bit address operand `nnn` (R76). -/
abbrev Addr := BitVec 12

end Sys2Proof
end

