-- ==== Sys2Proof/Syntax.lean ====
section
/-! DEFINITION. The 35 instructions, one constructor per row of the opcode map (spec/30_encoding.md R77), in its order. -/

namespace Sys2Proof

/-- One constructor per row of R77. The operand fields carry their widths in their types (R76): `x`, `y` register indices
and `n` a row count of 4 bits, `nn` a byte, `nnn` a 12-bit address. `shr` and `shl` have no `y`: the nibble is no operand
and any value of it decodes to the same instruction (R76, R82). -/
inductive Instr where
  /-- 0000 (R109) -/
  | nop
  /-- 00E0 (R200) -/
  | cls
  /-- 00EE (R102) -/
  | ret
  /-- 1NNN, JP nnn (R100) -/
  | jp (nnn : Addr)
  /-- 2NNN, CALL nnn (R101) -/
  | call (nnn : Addr)
  /-- 3XNN, SE Vx, nn (R104) -/
  | seImm (x : Nibble) (nn : Byte)
  /-- 4XNN, SNE Vx, nn (R105) -/
  | sneImm (x : Nibble) (nn : Byte)
  /-- 5XY0, SE Vx, Vy (R106) -/
  | seReg (x y : Nibble)
  /-- 6XNN, LD Vx, nn (R131) -/
  | ldImm (x : Nibble) (nn : Byte)
  /-- 7XNN, ADD Vx, nn (R132) -/
  | addImm (x : Nibble) (nn : Byte)
  /-- 8XY0, LD Vx, Vy (R133) -/
  | ldReg (x y : Nibble)
  /-- 8XY1, OR Vx, Vy (R135) -/
  | orReg (x y : Nibble)
  /-- 8XY2, AND Vx, Vy (R136) -/
  | andReg (x y : Nibble)
  /-- 8XY3, XOR Vx, Vy (R137) -/
  | xorReg (x y : Nibble)
  /-- 8XY4, ADD Vx, Vy (R139) -/
  | addReg (x y : Nibble)
  /-- 8XY5, SUB Vx, Vy (R140) -/
  | subReg (x y : Nibble)
  /-- 8XY6, SHR Vx (R141) -/
  | shr (x : Nibble)
  /-- 8XY7, SUBN Vx, Vy (R142) -/
  | subnReg (x y : Nibble)
  /-- 8XYE, SHL Vx (R143) -/
  | shl (x : Nibble)
  /-- 9XY0, SNE Vx, Vy (R107) -/
  | sneReg (x y : Nibble)
  /-- ANNN, LD I, nnn (R170) -/
  | ldI (nnn : Addr)
  /-- BNNN, JP V0, nnn (R108) -/
  | jpV0 (nnn : Addr)
  /-- CXNN, RND Vx, nn (R145) -/
  | rnd (x : Nibble) (nn : Byte)
  /-- DXYN, DRW Vx, Vy, n (R202) -/
  | drw (x y n : Nibble)
  /-- EX9E, SKP Vx (R220) -/
  | skp (x : Nibble)
  /-- EXA1, SKNP Vx (R221) -/
  | sknp (x : Nibble)
  /-- FX07, LD Vx, DT (R223) -/
  | ldFromDT (x : Nibble)
  /-- FX0A, LD Vx, K (R222) -/
  | ldKey (x : Nibble)
  /-- FX15, LD DT, Vx (R224) -/
  | ldDT (x : Nibble)
  /-- FX18, LD ST, Vx (R225) -/
  | ldST (x : Nibble)
  /-- FX1E, ADD I, Vx (R171) -/
  | addI (x : Nibble)
  /-- FX29, LD F, Vx (R172) -/
  | ldF (x : Nibble)
  /-- FX33, LD B, Vx (R174) -/
  | ldB (x : Nibble)
  /-- FX55, LD [I], Vx (R178) -/
  | storeRegs (x : Nibble)
  /-- FX65, LD Vx, [I] (R179) -/
  | loadRegs (x : Nibble)
  deriving DecidableEq, Repr

end Sys2Proof
end

