-- ==== Sys2Proof/Decode.lean ====
section
/-! DEFINITION. The decoder and the encoder (spec/30_encoding.md R73-R78). Every encoding but 0x0000 is general knowledge by the spec's own mark (log entry 7). -/

namespace Sys2Proof

/-- `n1 = w[15:12]` (R8). -/
def nibble1 (w : Word) : Nibble := w.extractLsb' 12 4
/-- `n2 = w[11:8]`, the field `x` (R8, R76). -/
def nibble2 (w : Word) : Nibble := w.extractLsb' 8 4
/-- `n3 = w[7:4]`, the field `y` (R8, R76). -/
def nibble3 (w : Word) : Nibble := w.extractLsb' 4 4
/-- `n4 = w[3:0]`, the field `n` (R8, R76). -/
def nibble4 (w : Word) : Nibble := w.extractLsb' 0 4

/-- The byte immediate `nn = w[7:0]` from its two nibbles (R10, R76). -/
def byteOf (n3 n4 : Nibble) : Byte := n3 ++ n4

/-- The address `nnn = w[11:0]` from its three nibbles (R10, R76). -/
def addrOf (n2 n3 n4 : Nibble) : Addr := n2 ++ (n3 ++ n4)

/-- The word made of four nibbles, `n1` highest (R8). -/
def wordOf (n1 n2 n3 n4 : Nibble) : Word := n1 ++ (n2 ++ (n3 ++ n4))

/-- The words 0NNN: exactly 0000, 00E0 and 00EE are instructions (R77 rows 1-3, R78, R79). -/
def decodeF0 (n2 n3 n4 : Nibble) : Option Instr :=
  if n2 = 0x0#4 ∧ n3 = 0x0#4 ∧ n4 = 0x0#4 then some .nop
  else if n2 = 0x0#4 ∧ n3 = 0xE#4 ∧ n4 = 0x0#4 then some .cls
  else if n2 = 0x0#4 ∧ n3 = 0xE#4 ∧ n4 = 0xE#4 then some .ret
  else none

/-- The words 8XYn, by the function nibble (R77 rows 11-19, R144). -/
def decode8 (x y n4 : Nibble) : Option Instr :=
  match n4 with
  | 0x0#4 => some (.ldReg x y)
  | 0x1#4 => some (.orReg x y)
  | 0x2#4 => some (.andReg x y)
  | 0x3#4 => some (.xorReg x y)
  | 0x4#4 => some (.addReg x y)
  | 0x5#4 => some (.subReg x y)
  | 0x6#4 => some (.shr x)
  | 0x7#4 => some (.subnReg x y)
  | 0xE#4 => some (.shl x)
  | _ => none

/-- The words EXnn, by the function byte (R77 rows 25-26). -/
def decodeE (x : Nibble) (f : Byte) : Option Instr :=
  match f with
  | 0x9E#8 => some (.skp x)
  | 0xA1#8 => some (.sknp x)
  | _ => none

/-- The words FXnn, by the function byte (R77 rows 27-35). -/
def decodeF (x : Nibble) (f : Byte) : Option Instr :=
  match f with
  | 0x07#8 => some (.ldFromDT x)
  | 0x0A#8 => some (.ldKey x)
  | 0x15#8 => some (.ldDT x)
  | 0x18#8 => some (.ldST x)
  | 0x1E#8 => some (.addI x)
  | 0x29#8 => some (.ldF x)
  | 0x33#8 => some (.ldB x)
  | 0x55#8 => some (.storeRegs x)
  | 0x65#8 => some (.loadRegs x)
  | _ => none

/-- Decode as "a pure function of the four nibbles" (R73), by the major opcode nibble; the last line
covers no nibble. -/
def decodeNibbles (n1 n2 n3 n4 : Nibble) : Option Instr :=
  match n1 with
  | 0x0#4 => decodeF0 n2 n3 n4
  | 0x1#4 => some (.jp (addrOf n2 n3 n4))
  | 0x2#4 => some (.call (addrOf n2 n3 n4))
  | 0x3#4 => some (.seImm n2 (byteOf n3 n4))
  | 0x4#4 => some (.sneImm n2 (byteOf n3 n4))
  | 0x5#4 => if n4 = 0x0#4 then some (.seReg n2 n3) else none
  | 0x6#4 => some (.ldImm n2 (byteOf n3 n4))
  | 0x7#4 => some (.addImm n2 (byteOf n3 n4))
  | 0x8#4 => decode8 n2 n3 n4
  | 0x9#4 => if n4 = 0x0#4 then some (.sneReg n2 n3) else none
  | 0xA#4 => some (.ldI (addrOf n2 n3 n4))
  | 0xB#4 => some (.jpV0 (addrOf n2 n3 n4))
  | 0xC#4 => some (.rnd n2 (byteOf n3 n4))
  | 0xD#4 => some (.drw n2 n3 n4)
  | 0xE#4 => decodeE n2 (byteOf n3 n4)
  | 0xF#4 => decodeF n2 (byteOf n3 n4)
  | _ => none

/-- `Decode(w)` (R73): the instruction the word selects, or none. -/
def decode (w : Word) : Option Instr :=
  decodeNibbles (nibble1 w) (nibble2 w) (nibble3 w) (nibble4 w)

/-- Why bytes are no instruction: fewer than the two bytes every instruction has (R81), or a word that no row of the
opcode map selects (R78). -/
inductive DecodeError where
  | truncated
  | unimplementedOpcode (w : Word)
  deriving DecidableEq, Repr

/-- The instruction word of two bytes, the high byte first (R56). -/
def wordOfBytes (hi lo : Byte) : Word := hi ++ lo

/-- Decoding the bytes of an instruction stream: the first instruction and the bytes after it, or the named reason why
there is none. Total on any bytes (R56, R73, R81). -/
def decodeBytes : List Byte → Except DecodeError (Instr × List Byte)
  | hi :: lo :: rest =>
    match decode (wordOfBytes hi lo) with
    | some i => .ok (i, rest)
    | none => .error (.unimplementedOpcode (wordOfBytes hi lo))
  | [_] => .error .truncated
  | [] => .error .truncated

/-- Format F0: a fixed word (R74). -/
def encodeF0 (f : Byte) : Word := 0x00#8 ++ f
/-- Format FA: a major nibble and an address (R74). -/
def encodeFA (o : Nibble) (nnn : Addr) : Word := o ++ nnn
/-- Format FXB: a major nibble, a register, a byte (R74). -/
def encodeFXB (o x : Nibble) (nn : Byte) : Word := o ++ (x ++ nn)
/-- Formats FXY and FXYN: a major nibble, two registers, a nibble (R74). -/
def encodeFXY (o x y f : Nibble) : Word := wordOf o x y f
/-- Format FXF: a major nibble, a register, a function byte (R74). -/
def encodeFXF (o x : Nibble) (f : Byte) : Word := o ++ (x ++ f)

/-- The word of an instruction, row by row from R74 and R77. `shr` and `shl` encode y = 0 (R82). -/
def encode : Instr → Word
  | .nop => encodeF0 0x00
  | .cls => encodeF0 0xE0
  | .ret => encodeF0 0xEE
  | .jp nnn => encodeFA 0x1 nnn
  | .call nnn => encodeFA 0x2 nnn
  | .seImm x nn => encodeFXB 0x3 x nn
  | .sneImm x nn => encodeFXB 0x4 x nn
  | .seReg x y => encodeFXY 0x5 x y 0x0
  | .ldImm x nn => encodeFXB 0x6 x nn
  | .addImm x nn => encodeFXB 0x7 x nn
  | .ldReg x y => encodeFXY 0x8 x y 0x0
  | .orReg x y => encodeFXY 0x8 x y 0x1
  | .andReg x y => encodeFXY 0x8 x y 0x2
  | .xorReg x y => encodeFXY 0x8 x y 0x3
  | .addReg x y => encodeFXY 0x8 x y 0x4
  | .subReg x y => encodeFXY 0x8 x y 0x5
  | .shr x => encodeFXY 0x8 x 0x0 0x6
  | .subnReg x y => encodeFXY 0x8 x y 0x7
  | .shl x => encodeFXY 0x8 x 0x0 0xE
  | .sneReg x y => encodeFXY 0x9 x y 0x0
  | .ldI nnn => encodeFA 0xA nnn
  | .jpV0 nnn => encodeFA 0xB nnn
  | .rnd x nn => encodeFXB 0xC x nn
  | .drw x y n => encodeFXY 0xD x y n
  | .skp x => encodeFXF 0xE x 0x9E
  | .sknp x => encodeFXF 0xE x 0xA1
  | .ldFromDT x => encodeFXF 0xF x 0x07
  | .ldKey x => encodeFXF 0xF x 0x0A
  | .ldDT x => encodeFXF 0xF x 0x15
  | .ldST x => encodeFXF 0xF x 0x18
  | .addI x => encodeFXF 0xF x 0x1E
  | .ldF x => encodeFXF 0xF x 0x29
  | .ldB x => encodeFXF 0xF x 0x33
  | .storeRegs x => encodeFXF 0xF x 0x55
  | .loadRegs x => encodeFXF 0xF x 0x65

/-- The high byte of a word, stored at the lower address (R56). -/
def highByte (w : Word) : Byte := w.extractLsb' 8 8
/-- The low byte of a word, stored at the higher address (R56). -/
def lowByte (w : Word) : Byte := w.extractLsb' 0 8

/-- The two bytes of a word as memory holds them (R56). -/
def bytesOfWord (w : Word) : List Byte := [highByte w, lowByte w]

/-- The bytes of an instruction in memory (R56, R81). -/
def encodeBytes (i : Instr) : List Byte := bytesOfWord (encode i)

/-- The word of an opcode-table row's bits: `nbits` bits of `w`, every higher bit zero. -/
def tableWord (nbits w : Nat) : Word := BitVec.ofNat 16 (w % 2 ^ nbits)

/-- What the decoder reads from an instruction whose bits the opcode table numbers, laid out as memory holds it. -/
def decodeTableWord (nbits w : Nat) : Option Instr :=
  match decodeBytes (bytesOfWord (tableWord nbits w)) with
  | .ok (i, _) => some i
  | .error _ => none

end Sys2Proof
end

