-- ==== Sys2Proof/Config.lean ====
section
/-! DEFINITION. What an implementation fixes: the sizes and the four named parameters of spec/00_scope.md R7, and the free value that stands for the injected random byte. -/

namespace Sys2Proof

/-- `MEM_SIZE` (R7). -/
abbrev Config.memSize : Nat := 4096

/-- `PROGRAM_START` (R7, R54), also the value of PC after reset (R33). -/
abbrev Config.programStart : Nat := 0x200

/-- `MAX_PROGRAM_LEN` = 4096 - 512 (R7, R54). -/
abbrev Config.maxProgramLen : Nat := 3584

/-- `GLYPH_STRIDE`: bytes per glyph (R7, R52). -/
abbrev Config.glyphStride : Nat := 5

/-- `P_JUMP_OFFSET_REG` (R7, R108): which register `BNNN` adds. -/
inductive JumpOffsetReg where
  | v0
  | vx
  deriving DecidableEq, Repr

/-- The named parameters of R7. "A parameter is an argument of the model": the model carries them as data beside the
state, so that a claim over all states is a claim for every value of every parameter (log entry 2). -/
structure Params where
  /-- `P_GLYPH_TABLE`: the 80 glyph bytes (R53). -/
  glyphTable : Vector Byte 80
  /-- `P_LOGIC_VF_RESET`: do 8XY1, 8XY2, 8XY3 clear VF (R134). -/
  logicVfReset : Bool
  /-- `P_JUMP_OFFSET_REG`: the register BNNN adds (R108). -/
  jumpOffsetReg : JumpOffsetReg
  /-- `P_FONT_DIGIT_MASK`: does FX29 keep only the low nibble of Vx (R172). -/
  fontDigitMask : Bool
  deriving DecidableEq, Repr

/-- The default of `P_GLYPH_TABLE`: the table of spec/20_memory.md R53, one line a glyph. The spec marks it as general
knowledge (log entry 2). -/
def Params.defaultGlyphs : Vector Byte 80 :=
  #v[0xF0, 0x90, 0x90, 0x90, 0xF0,
     0x20, 0x60, 0x20, 0x20, 0x70,
     0xF0, 0x10, 0xF0, 0x80, 0xF0,
     0xF0, 0x10, 0xF0, 0x10, 0xF0,
     0x90, 0x90, 0xF0, 0x10, 0x10,
     0xF0, 0x80, 0xF0, 0x10, 0xF0,
     0xF0, 0x80, 0xF0, 0x90, 0xF0,
     0xF0, 0x10, 0x20, 0x40, 0x40,
     0xF0, 0x90, 0xF0, 0x90, 0xF0,
     0xF0, 0x90, 0xF0, 0x10, 0xF0,
     0xF0, 0x90, 0xF0, 0x90, 0x90,
     0xE0, 0x90, 0xE0, 0x90, 0xE0,
     0xF0, 0x80, 0x80, 0x80, 0xF0,
     0xE0, 0x90, 0x90, 0x90, 0xE0,
     0xF0, 0x80, 0xF0, 0x80, 0xF0,
     0xF0, 0x80, 0xF0, 0x80, 0x80]

/-- The defaults of R7. -/
def Params.default : Params where
  glyphTable := Params.defaultGlyphs
  logicVfReset := false
  jumpOffsetReg := .v0
  fontDigitMask := false

/-- The contents of memory at reset (R33): the glyph table at 0x000-0x04F, zero at every other address. It is what an
address the memory list does not hold reads as (log entry 5). -/
def Params.initialByte (p : Params) (a : Nat) : Byte :=
  if h : a < 80 then p.glyphTable[a] else 0

/-- The injected random-byte source (R6, R32, R145; spec/93 U6 "any value"): the byte of the n-th draw. No body: nothing
can be proved of its value (log entry 1). -/
opaque Config.rndByte : Nat → Byte

end Sys2Proof
end

