-- ==== Sys2Proof/Machine/State.lean ====
section
/-! DEFINITION. The machine's state as plain data (spec/10_state.md R20), the faults of a step (spec/60_exceptions.md R240) and the state after reset (R33). -/

namespace Sys2Proof.Machine

/-- The faults of a step (R240). A step that raises one answers a next state whose latch holds it (R246); a step of a
latched machine answers it as its outcome `fault` (R247, log entry 3). Safe: each is the fault the spec names there. -/
inductive Fault where
  /-- Code 1. Raised by decode of any word of R78; safe (R241). -/
  | unimplementedOpcode (w : Word)
  /-- Code 2. Raised by fetch (R71) and by FX33, FX55, FX65, DXYN (R173) with the lowest failing address; safe (R243). -/
  | memoryOutOfBounds (a : Nat)
  /-- Code 3. Raised by CALL with all 16 slots used, with the CALL's address; safe (R242). -/
  | stackOverflow (p : Word)
  /-- Code 4. Raised by RET with no slot used, with the RET's address; safe (R242). -/
  | stackUnderflow (p : Word)
  /-- Code 5. Raised by EX9E and EXA1 on a register value above 15; safe (R244). -/
  | keyIndexOutOfRange (k : Byte)
  deriving DecidableEq, Repr

/-- The reasons an instruction has no meaning. -/
inductive Refusal where
  /-- Raised by an arm of `exec` whose instruction is not modelled; no arm does now. Safe: it stops the machine. -/
  | notModelled (mnemonic : String)
  deriving DecidableEq, Repr

/-- The framebuffer: 64 x 32 cells, cell `x + 64*y` at index `x + 64*y`, lit is `true` (R28). -/
abbrev Framebuffer := Vector Bool 2048

/-- The machine state: the components of R20, and two fields of the model's own, `params` and `draws`. -/
structure State where
  /-- V0-VF (R21); VF, index 15, is also the flag register (R22). -/
  v : Vector Byte 16
  /-- The address register I (R23). -/
  i : Word
  /-- The program counter (R24). -/
  pc : Word
  /-- The call-stack slots S[0..15] (R25). -/
  stack : Vector Word 16
  /-- SP, the count of used slots, 0..16 (R25). -/
  sp : Fin 17
  /-- The delay timer (R26). -/
  dt : Byte
  /-- The sound timer (R26). -/
  st : Byte
  /-- The key state (R27). -/
  keys : Vector Bool 16
  /-- The framebuffer (R28). -/
  fb : Framebuffer
  /-- Memory (R29, R50): the cells that differ from the reset contents, by rising address (log entry 5). -/
  mem : List Host.Cell
  /-- The fault latch (R30). -/
  fault : Option Fault
  /-- The model's own: the parameters of R7, which nothing writes (log entry 2). -/
  params : Params
  /-- The model's own: how many random bytes bare steps have drawn (log entry 1). -/
  draws : Nat
  deriving DecidableEq, Repr

/-- All cells unlit (R28, R33). -/
def Framebuffer.blank : Framebuffer := Vector.replicate 2048 false

/-- The state of R33 for given parameters; `n` random bytes have been drawn before it. -/
def State.resetWith (p : Params) (n : Nat) : State where
  v := Vector.replicate 16 0
  i := 0
  pc := 0x200
  stack := Vector.replicate 16 0
  sp := 0
  dt := 0
  st := 0
  keys := Vector.replicate 16 false
  fb := Framebuffer.blank
  mem := []
  fault := none
  params := p
  draws := n

/-- The machine right after construction or reset (R33, R280, R282), with the default parameters of R7. -/
def State.reset : State := State.resetWith Params.default 0

end Sys2Proof.Machine
end

