-- ==== Sys2Proof/Machine/Ops.lean ====
section
/-! DEFINITION. The named operations over registers, memory, stack, framebuffer and the fault latch. -/

namespace Sys2Proof.Machine

/-- What a step or an instruction answers. -/
abbrev Result := Host.Outcome State Fault Refusal

/-! Registers -/

/-- `V[x]` (R9, R21). -/
def State.getV (s : State) (x : Nibble) : Byte := s.v[x.toNat]'x.isLt

/-- `V[x] <- b` (R9, R21). -/
def State.setV (s : State) (x : Nibble) (b : Byte) : State := { s with v := s.v.set x.toNat b x.isLt }

/-- `I <- a` (R23). -/
def State.setI (s : State) (a : Word) : State := { s with i := a }

/-- `PC <- a` (R24). -/
def State.setPc (s : State) (a : Word) : State := { s with pc := a }

/-- `DT <- b` (R26). -/
def State.setDT (s : State) (b : Byte) : State := { s with dt := b }

/-- `ST <- b` (R26). -/
def State.setST (s : State) (b : Byte) : State := { s with st := b }

/-- `FB <- f` (R28). -/
def State.setFb (s : State) (f : Framebuffer) : State := { s with fb := f }

/-- `K[k] <- p` (R27). -/
def State.setKey (s : State) (k : Nibble) (p : Bool) : State := { s with keys := s.keys.set k.toNat p k.isLt }

/-- `K[k]` (R27). -/
def State.key (s : State) (k : Nibble) : Bool := s.keys[k.toNat]'k.isLt

/-- The sixteen register or key indices, in rising order. -/
def allNibbles : List Nibble := (List.range 16).map (BitVec.ofNat 4)

/-- `min { i | K[i] = true }`, or none when no key is pressed (R222). -/
def State.firstKey (s : State) : Option Nibble := allNibbles.find? s.key

/-- One more random byte has been drawn (log entry 1). -/
def State.advanceDraws (s : State) : State := { s with draws := s.draws + 1 }

/-! Program counter -/

/-- A skip when the condition holds: PC moves 2 further (R103). -/
def State.skipIf (s : State) (c : Bool) : State := if c then s.setPc (s.pc + 2) else s

/-- The address the running instruction was fetched from: PC is 2 past it (R10, R72, R101). -/
def State.fetchPc (s : State) : Word := s.pc - 2

/-! The fault latch -/

/-- Fault entry on the state before the step: nothing changes but the latch (R246). -/
def takeFault (f : Fault) (s : State) : State := { s with fault := some f }

/-- Fault entry from within an instruction, which runs on the post-fetch state and has written nothing yet: the fetch
advance of PC is undone and the latch set (R70, R246). -/
def raiseFault (f : Fault) (s : State) : Result := .next (takeFault f (s.setPc s.fetchPc))

/-- The number of a fault (R240). -/
def faultCode : Fault → Nat
  | .unimplementedOpcode _ => 1
  | .memoryOutOfBounds _ => 2
  | .stackOverflow _ => 3
  | .stackUnderflow _ => 4
  | .keyIndexOutOfRange _ => 5

/-! The call stack -/

/-- Push: the return address goes to `S[SP]`, then SP counts it (R25, R101). -/
def State.push (s : State) (ret : Word) (h : s.sp.val < 16) : State :=
  { s with stack := s.stack.set s.sp.val ret h, sp := ⟨s.sp.val + 1, by omega⟩ }

/-- Pop: SP counts one slot fewer and PC takes that slot, which is not cleared (R25, R102). -/
def State.popPc (s : State) (h : 0 < s.sp.val) : State :=
  { s with sp := ⟨s.sp.val - 1, by omega⟩, pc := s.stack[s.sp.val - 1]'(by omega) }

/-! Memory -/

/-- What an address reads as, given what the unlisted addresses read as. -/
def memRead (unlisted : Nat → Byte) : List Host.Cell → Nat → Byte
  | [], a => unlisted a
  | c :: m, a => if c.1 = a then c.2 else memRead unlisted m a

/-- A cell goes before the first cell of a higher address. -/
def memInsert (a : Nat) (b : Byte) : List Host.Cell → List Host.Cell
  | [] => [(a, b)]
  | c :: m => if a < c.1 then (a, b) :: c :: m else c :: memInsert a b m

/-- The address is no longer listed. -/
def memErase (a : Nat) (m : List Host.Cell) : List Host.Cell := m.filter fun c => c.1 != a

/-- A write keeps the canonical form: a cell is listed only where it differs from what it reads as unlisted. -/
def memWrite (unlisted : Nat → Byte) (m : List Host.Cell) (a : Nat) (b : Byte) : List Host.Cell :=
  if b = unlisted a then memErase a m else memInsert a b (memErase a m)

/-- The canonical form of memory: rising addresses, each inside the space, no cell equal to what its address reads as
unlisted. -/
abbrev Memory.wf (unlisted : Nat → Byte) (m : List Host.Cell) : Prop :=
  m.Pairwise (fun c d => c.1 < d.1) ∧ ∀ c ∈ m, c.1 < Config.memSize ∧ c.2 ≠ unlisted c.1

/-- `M[a]` for an address inside the space. -/
def State.readByte (s : State) (a : Nat) : Byte := memRead s.params.initialByte s.mem a

/-- `M[a] <- b` for an address inside the space. -/
def State.writeByte (s : State) (a : Nat) (b : Byte) : State :=
  { s with mem := memWrite s.params.initialByte s.mem a b }

/-- `MemRead(a, 1)` (R55): the address is an unbounded integer, never truncated. -/
def memReadChecked (s : State) (a : Nat) : Except Fault Byte :=
  if Config.memSize ≤ a then .error (.memoryOutOfBounds a) else .ok (s.readByte a)

/-- `MemWrite(a, 1, b)` (R55). -/
def memWriteChecked (s : State) (a : Nat) (b : Byte) : Except Fault State :=
  if Config.memSize ≤ a then .error (.memoryOutOfBounds a) else .ok (s.writeByte a b)

/-- The bytes at `base`, `base + 1`, ... in order. -/
def State.readBytes (s : State) (base n : Nat) : List Byte := (List.range n).map fun k => s.readByte (base + k)

/-- The bytes are written at `base`, `base + 1`, ... in order. -/
def State.writeBytes (s : State) (base : Nat) : List Byte → State
  | [] => s
  | b :: bs => (s.writeByte base b).writeBytes (base + 1) bs

/-- The lowest address of `base .. base + n - 1` that is outside memory, if there is one (R173). -/
def firstOutOfBounds (base n : Nat) : Option Nat :=
  ((List.range n).map (base + ·)).find? fun a => decide (Config.memSize ≤ a)

/-! Display -/

/-- The cell of column x and row y, each wrapped (R28, R202). -/
def cellAt (x y : Nat) : Fin 2048 := ⟨x % 64 + 64 * (y % 32), by omega⟩

/-- The cells one sprite row flips: bit 7 is the leftmost pixel (R201). -/
def rowCells (x0 y : Nat) (b : Byte) : List (Fin 2048) :=
  ((List.range 8).filter fun c => b.getLsbD (7 - c)).map fun c => cellAt (x0 + c) y

/-- The cells a sprite flips, row by row from the top, left to right (R201, R202). -/
def spriteCells (x0 : Nat) : Nat → List Byte → List (Fin 2048)
  | _, [] => []
  | y, b :: rows => rowCells x0 y b ++ spriteCells x0 (y + 1) rows

/-- One flip: an already lit cell is a collision (R202). -/
def flipCell (d : Framebuffer × Bool) (c : Fin 2048) : Framebuffer × Bool :=
  (d.1.set c.val (!d.1[c.val]) c.isLt, d.2 || d.1[c.val])

/-- The framebuffer after the flips, and whether one of them turned a lit cell unlit (R202). -/
def drawCells (fb : Framebuffer) (cells : List (Fin 2048)) : Framebuffer × Bool :=
  cells.foldl flipCell (fb, false)

end Sys2Proof.Machine
end

