-- ==== Sys2Proof/Machine/Operands.lean ====
section
/-! DEFINITION. The operand forms: zero-extended immediates, the digit and jump-offset operands with their parameters, key indices, and blocks of memory through I. -/

namespace Sys2Proof.Machine

/-- `zext_16(nnn)` (R8, R76). -/
def zextAddr (nnn : Addr) : Word := nnn.setWidth 16

/-- `zext_16(b)` (R8). -/
def zextByte (b : Byte) : Word := b.setWidth 16

/-- The `x` field of an address operand's word: `w[11:8] = nnn[11:8]` (R76, R108). -/
def addrX (nnn : Addr) : Nibble := nnn.extractLsb' 8 4

/-- The register value BNNN adds, V0 or Vx by `P_JUMP_OFFSET_REG` (R108). -/
def jumpOffset (s : State) (nnn : Addr) : Byte :=
  match s.params.jumpOffsetReg with
  | .v0 => s.getV 0
  | .vx => s.getV (addrX nnn)

/-- The digit FX29 looks up, the whole byte or its low nibble by `P_FONT_DIGIT_MASK` (R172). -/
def fontDigit (s : State) (x : Nibble) : Byte :=
  if s.params.fontDigitMask then s.getV x &&& 0x0F else s.getV x

/-- The glyph address of a digit: `zext_16(d) * 5`, GLYPH_BASE being 0 (R52, R172). -/
def glyphAddress (d : Byte) : Word := zextByte d * 5

/-- An access to the `n` bytes at `I`: every address is checked before the first access, and the lowest one outside
memory is the fault's (R173, R246). -/
def withBlock (n : Nat) (s : State) (body : State) : Result :=
  match firstOutOfBounds s.i.toNat n with
  | some a => raiseFault (.memoryOutOfBounds a) s
  | none => .next body

/-- A key index held in a register: a value above 15 has no key and faults (R220, R244). -/
def withKey (x : Nibble) (s : State) (body : Nibble → State) : Result :=
  if 15 < (s.getV x).toNat then raiseFault (.keyIndexOutOfRange (s.getV x)) s
  else .next (body ((s.getV x).setWidth 4))

/-- The three decimal digits of a byte, hundreds first (R174). -/
def bcdBytes (b : Byte) : List Byte :=
  [BitVec.ofNat 8 (b.toNat / 100), BitVec.ofNat 8 (b.toNat / 10 % 10), BitVec.ofNat 8 (b.toNat % 10)]

/-- The number of registers of a block `V0..Vx`: x + 1 (R76, R178). -/
def blockLen (x : Nibble) : Nat := x.toNat + 1

/-- The values of `V0..Vx`, in order (R178). -/
def regBlock (s : State) (x : Nibble) : List Byte := (List.range (blockLen x)).map fun k => s.getV (BitVec.ofNat 4 k)

/-- The bytes go to `V[k]`, `V[k+1]`, ... in order (R179). -/
def loadRegBlock (s : State) (k : Nat) : List Byte → State
  | [] => s
  | b :: bs => loadRegBlock (s.setV (BitVec.ofNat 4 k) b) (k + 1) bs

end Sys2Proof.Machine
end

