-- ==== Sys2Proof/Machine/ControlFlow.lean ====
section
/-! DEFINITION. Control flow: NOP, JP, CALL, RET, JP V0 and the skips (spec/40_control_flow.md). Each meaning runs on the post-fetch state (R10). -/

namespace Sys2Proof.Machine

/-- NOP (R109). -/
def execNop (s : State) : Result := .next s

/-- JP nnn: `PC <- zext_16(nnn)` (R100). -/
def execJp (nnn : Addr) (s : State) : Result := .next (s.setPc (zextAddr nnn))

/-- CALL nnn: StackOverflow at the CALL's address when 16 slots are used; else push PC and jump (R101). -/
def execCall (nnn : Addr) (s : State) : Result :=
  if h : s.sp.val < 16 then .next ((s.push s.pc h).setPc (zextAddr nnn))
  else raiseFault (.stackOverflow s.fetchPc) s

/-- RET: StackUnderflow at the RET's address when no slot is used; else pop into PC (R102). -/
def execRet (s : State) : Result :=
  if h : 0 < s.sp.val then .next (s.popPc h) else raiseFault (.stackUnderflow s.fetchPc) s

/-- JP V0, nnn: the 16-bit sum, not reduced modulo 2^12 (R108). -/
def execJpV0 (nnn : Addr) (s : State) : Result := .next (s.setPc (zextAddr nnn + zextByte (jumpOffset s nnn)))

/-- SE Vx, nn (R104). -/
def execSeImm (x : Nibble) (nn : Byte) (s : State) : Result := .next (s.skipIf (s.getV x == nn))

/-- SNE Vx, nn (R105). -/
def execSneImm (x : Nibble) (nn : Byte) (s : State) : Result := .next (s.skipIf (s.getV x != nn))

/-- SE Vx, Vy (R106). -/
def execSeReg (x y : Nibble) (s : State) : Result := .next (s.skipIf (s.getV x == s.getV y))

/-- SNE Vx, Vy (R107). -/
def execSneReg (x y : Nibble) (s : State) : Result := .next (s.skipIf (s.getV x != s.getV y))

end Sys2Proof.Machine
end

