-- ==== Sys2Proof/Machine/Flags.lean ====
section
/-! DEFINITION. The flag computations (spec/10_state.md R22, spec/41_register_alu.md R130) and the order in which a result and its flag are written (R138). -/

namespace Sys2Proof.Machine

/-- VF is register 15 (R22). -/
def vf : Nibble := 0xF

/-- A flag as VF holds it: 1 or 0. -/
def flagByte (c : Bool) : Byte := if c then 1 else 0

/-- The carry: the unbounded sum exceeds 255 (R130, R139). -/
def carry (a b : Byte) : Bool := decide (255 < a.toNat + b.toNat)

/-- Not-borrow of `a - b`: the minuend is at least the subtrahend (R130, R140). -/
def notBorrow (a b : Byte) : Bool := decide (b.toNat ≤ a.toNat)

/-- The bit a right shift moves out, `a[0]` (R141). -/
def shiftedOutRight (a : Byte) : Bool := a.getLsbD 0

/-- The bit a left shift moves out, `a[7]` (R143). -/
def shiftedOutLeft (a : Byte) : Bool := a.getLsbD 7

/-- `VF <- c` (R22). -/
def State.setFlag (s : State) (c : Bool) : State := s.setV vf (flagByte c)

/-- The result goes to `V[x]` first and the flag to VF second, so VF holds the flag when x = F (R138). -/
def writeResultFlag (x : Nibble) (r : Byte) (c : Bool) (s : State) : State := (s.setV x r).setFlag c

/-- A logic result goes to `V[x]`; then VF is cleared, only under `P_LOGIC_VF_RESET` (R134). -/
def writeLogic (x : Nibble) (r : Byte) (s : State) : State :=
  if s.params.logicVfReset then writeResultFlag x r false s else s.setV x r

end Sys2Proof.Machine
end

