-- ==== Sys2Proof/Machine/Display.lean ====
section
/-! DEFINITION. Display instructions (spec/43_display.md): CLS and DRW. -/

namespace Sys2Proof.Machine

/-- CLS: every cell unlit (R200). -/
def execCls (s : State) : Result := .next (s.setFb Framebuffer.blank)

/-- What DRW does to the framebuffer, and whether a lit cell went unlit: the `n` bytes at I, drawn from column V[x] and
row V[y], both read before VF is written (R202). -/
def drawSprite (x y n : Nibble) (s : State) : Framebuffer × Bool :=
  drawCells s.fb (spriteCells (s.getV x).toNat (s.getV y).toNat (s.readBytes s.i.toNat n.toNat))

/-- DRW Vx, Vy, n: the flips, then `VF <- collision`; n = 0 reads nothing and clears VF (R202). -/
def execDrw (x y n : Nibble) (s : State) : Result :=
  withBlock n.toNat s ((s.setFb (drawSprite x y n s).1).setFlag (drawSprite x y n s).2)

end Sys2Proof.Machine
end

