-- ==== Sys2Proof/Machine/IndexMemory.lean ====
section
/-! DEFINITION. Address-register and memory instructions (spec/42_index_memory.md). The block accesses leave I unchanged (R173). -/

namespace Sys2Proof.Machine

/-- LD I, nnn (R170). -/
def execLdI (nnn : Addr) (s : State) : Result := .next (s.setI (zextAddr nnn))

/-- ADD I, Vx: modulo 2^16, no flag, no fault (R171). -/
def execAddI (x : Nibble) (s : State) : Result := .next (s.setI (s.i + zextByte (s.getV x)))

/-- LD F, Vx: the glyph address of the digit (R172). -/
def execLdF (x : Nibble) (s : State) : Result := .next (s.setI (glyphAddress (fontDigit s x)))

/-- LD B, Vx: the three decimal digits at I, I+1, I+2 (R174). -/
def execLdB (x : Nibble) (s : State) : Result :=
  withBlock 3 s (s.writeBytes s.i.toNat (bcdBytes (s.getV x)))

/-- LD [I], Vx: V0..Vx go to I, I+1, ... (R178). -/
def execStoreRegs (x : Nibble) (s : State) : Result :=
  withBlock (blockLen x) s (s.writeBytes s.i.toNat (regBlock s x))

/-- LD Vx, [I]: V0..Vx come from I, I+1, ... (R179). -/
def execLoadRegs (x : Nibble) (s : State) : Result :=
  withBlock (blockLen x) s (loadRegBlock s 0 (s.readBytes s.i.toNat (blockLen x)))

end Sys2Proof.Machine
end

