-- ==== Sys2Proof/Machine/KeysTimers.lean ====
section
/-! DEFINITION. Key and timer instructions (spec/44_keys_timers.md). -/

namespace Sys2Proof.Machine

/-- SKP Vx: skip if the key is pressed (R220). -/
def execSkp (x : Nibble) (s : State) : Result := withKey x s fun k => s.skipIf (s.key k)

/-- SKNP Vx: skip if the key is not pressed (R221). -/
def execSknp (x : Nibble) (s : State) : Result := withKey x s fun k => s.skipIf (!s.key k)

/-- LD Vx, DT (R223). -/
def execLdFromDT (x : Nibble) (s : State) : Result := .next (s.setV x s.dt)

/-- LD Vx, K: the lowest pressed key; with none pressed PC goes back to this instruction and nothing else changes
(R222). -/
def execLdKey (x : Nibble) (s : State) : Result :=
  match s.firstKey with
  | some k => .next (s.setV x (k.setWidth 8))
  | none => .next (s.setPc s.fetchPc)

/-- LD DT, Vx (R224). -/
def execLdDT (x : Nibble) (s : State) : Result := .next (s.setDT (s.getV x))

/-- LD ST, Vx: no sound signal by itself (R225). -/
def execLdST (x : Nibble) (s : State) : Result := .next (s.setST (s.getV x))

end Sys2Proof.Machine
end

