-- ==== Sys2Proof/Machine/RegisterAlu.lean ====
section
/-! DEFINITION. Register and arithmetic instructions (spec/41_register_alu.md): loads, adds, logic, subtracts, shifts and RND. None of them can fault. -/

namespace Sys2Proof.Machine

/-- LD Vx, nn (R131). -/
def execLdImm (x : Nibble) (nn : Byte) (s : State) : Result := .next (s.setV x nn)

/-- ADD Vx, nn: wraps, writes no flag (R132). -/
def execAddImm (x : Nibble) (nn : Byte) (s : State) : Result := .next (s.setV x (s.getV x + nn))

/-- LD Vx, Vy (R133). -/
def execLdReg (x y : Nibble) (s : State) : Result := .next (s.setV x (s.getV y))

/-- OR Vx, Vy (R135). -/
def execOrReg (x y : Nibble) (s : State) : Result := .next (writeLogic x (s.getV x ||| s.getV y) s)

/-- AND Vx, Vy (R136). -/
def execAndReg (x y : Nibble) (s : State) : Result := .next (writeLogic x (s.getV x &&& s.getV y) s)

/-- XOR Vx, Vy (R137). -/
def execXorReg (x y : Nibble) (s : State) : Result := .next (writeLogic x (s.getV x ^^^ s.getV y) s)

/-- ADD Vx, Vy: the sum modulo 2^8, VF the carry (R139). -/
def execAddReg (x y : Nibble) (s : State) : Result :=
  .next (writeResultFlag x (s.getV x + s.getV y) (carry (s.getV x) (s.getV y)) s)

/-- SUB Vx, Vy: `Vx - Vy` modulo 2^8, VF the not-borrow (R140). -/
def execSubReg (x y : Nibble) (s : State) : Result :=
  .next (writeResultFlag x (s.getV x - s.getV y) (notBorrow (s.getV x) (s.getV y)) s)

/-- SHR Vx: logical, in place, VF the bit shifted out (R141). -/
def execShr (x : Nibble) (s : State) : Result :=
  .next (writeResultFlag x (s.getV x >>> 1) (shiftedOutRight (s.getV x)) s)

/-- SUBN Vx, Vy: `Vy - Vx` modulo 2^8, VF the not-borrow (R142). -/
def execSubnReg (x y : Nibble) (s : State) : Result :=
  .next (writeResultFlag x (s.getV y - s.getV x) (notBorrow (s.getV y) (s.getV x)) s)

/-- SHL Vx: in place, VF the bit shifted out (R143). -/
def execShl (x : Nibble) (s : State) : Result :=
  .next (writeResultFlag x (s.getV x <<< 1) (shiftedOutLeft (s.getV x)) s)

/-- The effect of RND for a given random byte: `V[x] <- rnd AND nn` (R145). -/
def rndEffect (b : Byte) (x : Nibble) (nn : Byte) (s : State) : State := s.setV x (b &&& nn)

/-- RND Vx, nn on the next byte of the injected source, a free value (R145, log entry 1). -/
def execRnd (x : Nibble) (nn : Byte) (s : State) : Result :=
  .next (rndEffect (Config.rndByte s.draws) x nn s).advanceDraws

end Sys2Proof.Machine
end

