-- ==== Sys2Proof/Machine/Fetch.lean ====
section
/-! DEFINITION. The fetch and the cycle of a step (spec/30_encoding.md R70-R72), whatever runs the decoded instruction, and the placing of a word where the next fetch reads it. -/

namespace Sys2Proof.Machine

/-- The instruction word at PC, high byte first, through MemRead: `M[PC]` is checked before `M[PC+1]` (R56, R71, R245). -/
def fetch (s : State) : Except Fault Word :=
  match memReadChecked s s.pc.toNat with
  | .error f => .error f
  | .ok hi =>
    match memReadChecked s (s.pc.toNat + 1) with
    | .error f => .error f
    | .ok lo => .ok (wordOfBytes hi lo)

/-- One fetch-decode-execute cycle (R70): a latched machine returns its fault and does nothing (R247); a fetch or decode
fault is taken on the state before the step (R246); else PC moves 2 on (R72) and `run` executes the instruction. -/
def cycle (run : Instr → State → Result) (s : State) : Result :=
  match s.fault with
  | some f => .fault f
  | none =>
    match fetch s with
    | .error f => .next (takeFault f s)
    | .ok w =>
      match decode w with
      | none => .next (takeFault (.unimplementedOpcode w) s)
      | some i => run i (s.setPc (s.pc + 2))

/-- A word placed at PC as memory holds it, where there is room for it; the latch is cleared, since a latched machine
does not fetch (log entry 6). -/
def placeWord (s : State) (w : Word) : State :=
  if s.pc.toNat + 1 < Config.memSize then
    { s.writeBytes s.pc.toNat (bytesOfWord w) with fault := none }
  else { s with fault := none }

end Sys2Proof.Machine
end

