-- ==== Sys2Proof/Machine/Step.lean ====
section
/-! DEFINITION. One bare STEP (spec/30_encoding.md R70), its random byte drawn from the free value. -/

namespace Sys2Proof.Machine

/-- One STEP (R70). -/
def step (s : State) : Host.Outcome State Fault Refusal := cycle exec s

/-- The state with the instruction of an opcode-table row's bits stored where the next step fetches. -/
def State.withFetchWord (s : State) (nbits w : Nat) : State := placeWord s (tableWord nbits w)

end Sys2Proof.Machine
end

