-- ==== Sys2Proof/Machine/HostOps.lean ====
section
/-! DEFINITION. The seven operations of the block's interface (spec/00_scope.md R6), each an atomic transition of the whole state with its result to the host. -/

namespace Sys2Proof.Machine

/-- The operations the host may apply, one at a time, in any order (R6, R58, R251). -/
inductive HostOp where
  | reset
  | load (bytes : List Byte)
  | step (rnd : Byte)
  | tickDelay
  | tickSound
  | setKey (i : Nat) (p : Bool)
  | readFb
  deriving DecidableEq, Repr

/-- What an operation returns to the host (R6). -/
inductive HostResult where
  /-- RESET and TICK_DELAY return nothing. -/
  | nothing
  | ok
  /-- A step fault (R240), new or latched. -/
  | stepFault (f : Fault)
  /-- Code 16 (R252, R284). -/
  | loadSizeViolation (len : Nat)
  /-- Code 17 (R252, R260). -/
  | keyIndexInvalid (i : Nat)
  /-- The one-shot signal to the audio collaborator (R257). -/
  | sound (on : Bool)
  | framebuffer (fb : Framebuffer)
  /-- An instruction the model gives no meaning; no operation returns it. -/
  | refused (r : Refusal)
  deriving DecidableEq, Repr

/-- The number of an operation's error or fault (R240, R252). -/
def resultCode : HostResult → Option Nat
  | .stepFault f => some (faultCode f)
  | .loadSizeViolation _ => some 16
  | .keyIndexInvalid _ => some 17
  | .nothing => none
  | .ok => none
  | .sound _ => none
  | .framebuffer _ => none
  | .refused _ => none

/-- `RESET` (R280): every component at its value of R33. The parameters are the block's, and the count of random bytes is
no state of the machine: both stay (log entries 1, 2). -/
def hostReset (s : State) : State := State.resetWith s.params s.draws

/-- `LOAD(b)` (R284): more than 3584 bytes are rejected before any copy; else the bytes go to 0x200 on, and PC is
0x200. -/
def hostLoad (bytes : List Byte) (s : State) : State × HostResult :=
  if Config.maxProgramLen < bytes.length then (s, .loadSizeViolation bytes.length)
  else ((s.writeBytes Config.programStart bytes).setPc 0x200, .ok)

/-- The instruction of STEP(rnd): RND takes the byte the host supplies, every other instruction is `exec`'s (R70, R145). -/
def execGiven (b : Byte) (i : Instr) (s : State) : Result :=
  match i with
  | .rnd x nn => .next (rndEffect b x nn s)
  | other => exec other s

/-- What STEP returns: after a step its fault is the one the latch holds, and `Ok` is an empty latch (R70, R246). -/
def stepResult (s : State) : HostResult :=
  match s.fault with
  | none => .ok
  | some f => .stepFault f

/-- `STEP(rnd)` (R70). -/
def hostStep (b : Byte) (s : State) : State × HostResult :=
  match cycle (execGiven b) s with
  | .next t => (t, stepResult t)
  | .fault f => (s, .stepFault f)
  | .refused r => (s, .refused r)

/-- `TICK_DELAY` (R256). -/
def hostTickDelay (s : State) : State := if s.dt = 0 then s else s.setDT (s.dt - 1)

/-- `TICK_SOUND` (R257): the signal is that ST was 1. -/
def hostTickSound (s : State) : State × HostResult :=
  (if s.st = 0 then s else s.setST (s.st - 1), .sound (s.st == 1))

/-- `SET_KEY(i, p)` (R260). -/
def hostSetKey (i : Nat) (p : Bool) (s : State) : State × HostResult :=
  if 15 < i then (s, .keyIndexInvalid i) else (s.setKey (BitVec.ofNat 4 i) p, .ok)

/-- `READ_FB` (R262). -/
def hostReadFb (s : State) : State × HostResult := (s, .framebuffer s.fb)

/-- One operation of the interface (R6). -/
def hostApply (op : HostOp) (s : State) : State × HostResult :=
  match op with
  | .reset => (hostReset s, .nothing)
  | .load bytes => hostLoad bytes s
  | .step b => hostStep b s
  | .tickDelay => (hostTickDelay s, .nothing)
  | .tickSound => hostTickSound s
  | .setKey i p => hostSetKey i p s
  | .readFb => hostReadFb s

/-- Operations applied one after another in the host's order, with their results (R58). -/
def runOps : List HostOp → State → State × List HostResult
  | [], s => (s, [])
  | op :: ops, s =>
    ((runOps ops (hostApply op s).1).1, (hostApply op s).2 :: (runOps ops (hostApply op s).1).2)

end Sys2Proof.Machine
end

