-- ==== Sys2Proof/Safety.lean ====
section
/-! DEFINITION. What claims about runs are stated in: a running machine, the invariant every operation keeps, and what a fault's recorded information says. -/

namespace Sys2Proof.Machine

/-- The machine has not faulted since its last reset (R30). -/
abbrev State.Running (s : State) : Prop := s.fault = none

/-- Both bytes of the next instruction are inside memory (R71). -/
abbrev State.FetchInside (s : State) : Prop := s.pc.toNat + 1 < Config.memSize

/-- The word at PC, high byte first (R56). -/
def State.wordAtPc (s : State) : Word :=
  wordOfBytes (s.readByte s.pc.toNat) (s.readByte (s.pc.toNat + 1))

/-- What an unlisted address reads as, in this state. -/
abbrev State.unlisted (s : State) : Nat → Byte := s.params.initialByte

/-- The memory list is in its canonical form. -/
abbrev State.MemWf (s : State) : Prop := Memory.wf s.unlisted s.mem

/-- PC within the range R24 gives, 0x0000-0x10FE, and every return address one that a CALL can push, at most 0x1000. -/
abbrev State.PcWf (s : State) : Prop :=
  s.pc.toNat ≤ 0x10FE ∧ ∀ k : Fin 16, (s.stack[k.val]).toNat ≤ 0x1000

/-- The recorded information of a fault is as R240 says: an illegal word, an address at or above 4096, a key above 15. -/
def faultGenuine : Fault → Prop
  | .unimplementedOpcode w => decode w = none
  | .memoryOutOfBounds a => Config.memSize ≤ a
  | .stackOverflow _ => True
  | .stackUnderflow _ => True
  | .keyIndexOutOfRange k => 15 < k.toNat

/-- The latch holds nothing, or a fault whose information is genuine. -/
abbrev State.FaultWf (s : State) : Prop := ∀ f, s.fault = some f → faultGenuine f

/-- The invariant that every step and every host operation keeps. -/
structure State.Inv (s : State) : Prop where
  mem : s.MemWf
  pc : s.PcWf
  fault : s.FaultWf

end Sys2Proof.Machine
end

