-- ==== Sys2Proof/Certificates/Slice0/Obligations.lean ====
section
/-! DEFINITION. The statements for the provers, each from the rules of spec/ its docstring names. An instruction's statement says its encoding, the next state `exec` answers on the post-fetch state (R10), and through an equation of whole states everything it leaves unchanged. -/

open Sys2Proof Sys2Proof.Machine

/-! Encoding -/

/-- R73, R77: what the encoder writes, the decoder reads back, for every instruction and every operand. -/
def Obligations.DecodeReadsBackEncode : Prop := ∀ i : Instr, decode (encode i) = some i

/-- R77, R82: an instruction decoded from a word encodes to that word; only the ignored nibble of 8XY6 and 8XYE is
lost, written as 0. -/
def Obligations.EncodeGivesBackTheWord : Prop :=
  ∀ (w : Word) (i : Instr), decode w = some i →
    ((w &&& 0xF00F = 0x8006 ∨ w &&& 0xF00F = 0x800E) → encode i = w &&& 0xFF0F) ∧
    (¬ (w &&& 0xF00F = 0x8006 ∨ w &&& 0xF00F = 0x800E) → encode i = w)

/-- R73: a word that a row of the opcode map selects decodes to an instruction of that row, no second row selects it, and
a word that no row selects decodes to none. -/
def Obligations.DecodeFollowsTheOpcodeMap : Prop :=
  ∀ w : Word,
    (∀ r, r ∈ opcodeMap → r.selects w = true → ∃ i, decode w = some i ∧ i.row = r) ∧
    (∀ r r', r ∈ opcodeMap → r' ∈ opcodeMap → r.selects w = true → r'.selects w = true → r = r') ∧
    ((∀ r, r ∈ opcodeMap → r.selects w = false) → decode w = none)

/-- R78, R144: the illegal words are those of the five listed classes, and no others. -/
def Obligations.IllegalWordsAreTheListedOnes : Prop :=
  ∀ w : Word, decode w = none ↔
    (w.extractLsb' 12 4 = 0x0#4 ∧ w.extractLsb' 0 12 ∉ [0x000#12, 0x0E0#12, 0x0EE#12]) ∨
    (w.extractLsb' 12 4 ∈ [0x5#4, 0x9#4] ∧ w.extractLsb' 0 4 ≠ 0x0#4) ∨
    (w.extractLsb' 12 4 = 0x8#4 ∧ w.extractLsb' 0 4 ∈ [0x8#4, 0x9#4, 0xA#4, 0xB#4, 0xC#4, 0xD#4, 0xF#4]) ∨
    (w.extractLsb' 12 4 = 0xE#4 ∧ w.extractLsb' 0 8 ∉ [0x9E#8, 0xA1#8]) ∨
    (w.extractLsb' 12 4 = 0xF#4 ∧
      w.extractLsb' 0 8 ∉ [0x07#8, 0x0A#8, 0x15#8, 0x18#8, 0x1E#8, 0x29#8, 0x33#8, 0x55#8, 0x65#8])

/-- R77: a word of each family, written out from the opcode map, decodes to the instruction it stands for. -/
def Obligations.SampleWordsDecode : Prop :=
  decode 0x0000 = some .nop ∧ decode 0x2ABC = some (.call 0xABC) ∧ decode 0x9120 = some (.sneReg 0x1 0x2) ∧
  decode 0x7220 = some (.addImm 0x2 0x20) ∧ decode 0x8AB7 = some (.subnReg 0xA 0xB) ∧
  decode 0xF51E = some (.addI 0x5) ∧ decode 0xD12F = some (.drw 0x1 0x2 0xF) ∧
  decode 0xE1A1 = some (.sknp 0x1) ∧ decode 0xF50A = some (.ldKey 0x5)

/-! The step and its faults -/

/-- R70, R72: when the word at PC decodes, the bare step is `exec` of the instruction with PC moved 2 on. STEP(b) runs the
same instruction and differs on RND alone, which takes the host's byte (log entry 10); it gives the host that instruction's
next state and the result its latch holds. -/
def Obligations.StepRunsTheDecodedInstruction : Prop :=
  ∀ (s : State) (i : Instr), s.Running → s.FetchInside → decode s.wordAtPc = some i →
    step s = exec i { s with pc := s.pc + 2 } ∧
    ∀ b, cycle (execGiven b) s = execGiven b i { s with pc := s.pc + 2 } ∧
      ((∀ x nn, i ≠ .rnd x nn) → cycle (execGiven b) s = exec i { s with pc := s.pc + 2 } ∧
        ∀ t, exec i { s with pc := s.pc + 2 } = .next t → hostApply (.step b) s = (t, stepResult t)) ∧
      ∀ t, execGiven b i { s with pc := s.pc + 2 } = .next t → hostApply (.step b) s = (t, stepResult t)

/-- R71: the fetch reads the two bytes at PC and PC + 1, high byte first, whatever the alignment of PC; at or past 4096 it
faults with PC, and at 0xFFF with 0x1000, and then nothing but the latch changes. -/
def Obligations.FetchReadsTwoBytesOrFaults : Prop :=
  (∀ s : State, s.pc.toNat + 1 < 4096 →
    fetch s = .ok (wordOfBytes (s.readByte s.pc.toNat) (s.readByte (s.pc.toNat + 1)))) ∧
  ∀ s : State, s.Running →
    (4096 ≤ s.pc.toNat → step s = .next { s with fault := some (.memoryOutOfBounds s.pc.toNat) }) ∧
    (s.pc = 0xFFF → step s = .next { s with fault := some (.memoryOutOfBounds 0x1000) })

/-- R241: a fetched word that is no instruction faults with the word, nothing but the latch changes, and STEP returns the
fault; the word 0x0000 is an instruction. -/
def Obligations.IllegalWordFaults : Prop :=
  (∀ s : State, s.Running → s.FetchInside → decode s.wordAtPc = none →
    step s = .next { s with fault := some (.unimplementedOpcode s.wordAtPc) } ∧
    ∀ b, hostApply (.step b) s =
      ({ s with fault := some (.unimplementedOpcode s.wordAtPc) }, .stepFault (.unimplementedOpcode s.wordAtPc))) ∧
  decode 0x0000 ≠ none

/-- R247: while a fault is latched every STEP returns it and changes nothing, only RESET clears it, and the other
operations behave as when none is latched. -/
def Obligations.LatchedFaultStays : Prop :=
  ∀ (s : State) (f : Fault), s.fault = some f →
    step s = .fault f ∧ (∀ b, hostApply (.step b) s = (s, .stepFault f)) ∧
    (∀ op, op ≠ .reset → (hostApply op s).1.fault = some f) ∧ (hostApply .reset s).1.fault = none ∧
    ∀ op, op ≠ .reset → (∀ b, op ≠ .step b) →
      hostApply op s = ({ (hostApply op { s with fault := none }).1 with fault := some f },
        (hostApply op { s with fault := none }).2)

/-- R246: a step that raises a fault leaves every component as it was before the step and sets the latch, and STEP
returns exactly the fault that is then latched. -/
def Obligations.FaultIsAllOrNothing : Prop :=
  (∀ (s t : State) (f : Fault), s.Running → step s = .next t → t.fault = some f →
    t = { s with fault := some f }) ∧
  ∀ (s t : State) (b : Byte) (r : HostResult) (f : Fault), s.Running → hostApply (.step b) s = (t, r) →
    (t.fault = some f → r = .stepFault f ∧ t = { s with fault := some f }) ∧
    (r = .stepFault f → t.fault = some f)

/-- R240: STEP of a running machine returns Ok or one fault, and each fault has its own cause and its own recorded
information; a block access faults only with an address of its own block that is outside memory. -/
def Obligations.FaultsComeFromTheirCauses : Prop :=
  ∀ (s t : State) (b : Byte) (r : HostResult), s.Running → hostApply (.step b) s = (t, r) →
    r = .ok ∨ ∃ f, r = .stepFault f ∧
      match f with
      | .unimplementedOpcode w => faultCode f = 1 ∧ s.FetchInside ∧ w = s.wordAtPc ∧ decode w = none
      | .memoryOutOfBounds a => faultCode f = 2 ∧ 4096 ≤ a ∧
          ((¬ s.FetchInside ∧ a = max s.pc.toNat 4096) ∨
           (s.FetchInside ∧ a = max s.i.toNat 4096 ∧ ∃ x,
              (decode s.wordAtPc = some (.ldB x) ∧ a < s.i.toNat + 3) ∨
              (decode s.wordAtPc = some (.storeRegs x) ∧ a < s.i.toNat + (x.toNat + 1)) ∨
              (decode s.wordAtPc = some (.loadRegs x) ∧ a < s.i.toNat + (x.toNat + 1)) ∨
              ∃ y n, decode s.wordAtPc = some (.drw x y n) ∧ a < s.i.toNat + n.toNat))
      | .stackOverflow p => faultCode f = 3 ∧ p = s.pc ∧ s.sp = 16 ∧ ∃ nnn, decode s.wordAtPc = some (.call nnn)
      | .stackUnderflow p => faultCode f = 4 ∧ p = s.pc ∧ s.sp = 0 ∧ decode s.wordAtPc = some .ret
      | .keyIndexOutOfRange k => faultCode f = 5 ∧ 15 < k.toNat ∧ ∃ x, k = s.getV x ∧
          (decode s.wordAtPc = some (.skp x) ∨ decode s.wordAtPc = some (.sknp x))

/-- A machine that is not latched never stops: every step of it answers a next state. That a step which raises a fault
does so too, with the fault latched in it, is the model's choice (log entry 3), where R240 says only that STEP ends with the
fault. -/
def Obligations.RunningMachineSteps : Prop := ∀ s : State, s.Running → ∃ t, step s = .next t

/-! The invariant -/

/-- R24, R29, R240: every step keeps the invariant: memory in its canonical form, PC at most 0x10FE and return addresses
at most 0x1000, a latched fault's information genuine. -/
def Obligations.StepKeepsTheInvariant : Prop := ∀ s t : State, s.Inv → step s = .next t → t.Inv

/-- R33: the invariant holds right after reset, whatever the parameters. -/
def Obligations.ResetMeetsTheInvariant : Prop := ∀ (p : Params) (n : Nat), (State.resetWith p n).Inv

/-- R6, R251: every operation of the host keeps the invariant. -/
def Obligations.HostOperationsKeepTheInvariant : Prop :=
  ∀ (op : HostOp) (s : State), s.Inv → (hostApply op s).1.Inv

/-! Control flow -/

/-- R79, R109: the all-zero word, and it alone, is NOP, which changes nothing after the fetch. -/
def Obligations.NopDoesNothing : Prop :=
  (∀ w : Word, decode w = some .nop ↔ w = 0x0000) ∧ ∀ s : State, exec .nop s = .next s

/-- R100: JP sets PC to its address and changes nothing else. -/
def Obligations.JpSetsPc : Prop :=
  (∀ w : Word, w &&& 0xF000 = 0x1000 → decode w = some (.jp (w.extractLsb' 0 12))) ∧
  ∀ (nnn : Addr) (s : State), ∃ t, exec (.jp nnn) s = .next t ∧
    t.pc.toNat = nnn.toNat ∧ t = { s with pc := t.pc }

/-- R101: CALL pushes the post-fetch PC and jumps; with 16 slots used it raises StackOverflow at its own address and
changes nothing else. -/
def Obligations.CallPushesAndJumps : Prop :=
  (∀ w : Word, w &&& 0xF000 = 0x2000 → decode w = some (.call (w.extractLsb' 0 12))) ∧
  (∀ (nnn : Addr) (s : State) (k : Fin 16), s.sp.val = k.val → ∃ t, exec (.call nnn) s = .next t ∧
    t.stack[k.val] = s.pc ∧ (∀ j : Fin 16, j ≠ k → t.stack[j.val] = s.stack[j.val]) ∧
    t.sp.val = s.sp.val + 1 ∧ t.pc.toNat = nnn.toNat ∧
    t = { s with stack := t.stack, sp := t.sp, pc := t.pc }) ∧
  ∀ (nnn : Addr) (s : State), s.sp = 16 →
    exec (.call nnn) s = .next { s with pc := s.pc - 2, fault := some (.stackOverflow (s.pc - 2)) }

/-- R102: RET pops the top slot into PC and does not clear it; with no slot used it raises StackUnderflow at its own
address and changes nothing else. -/
def Obligations.RetPopsPc : Prop :=
  (∀ w : Word, decode w = some .ret ↔ w = 0x00EE) ∧
  (∀ (s : State) (k : Fin 16), s.sp.val = k.val + 1 → ∃ t, exec .ret s = .next t ∧
    t.sp.val = k.val ∧ t.pc = s.stack[k.val] ∧ t = { s with sp := t.sp, pc := t.pc }) ∧
  ∀ s : State, s.sp = 0 →
    exec .ret s = .next { s with pc := s.pc - 2, fault := some (.stackUnderflow (s.pc - 2)) }

/-- R101, R102: a CALL, then anything that leaves the stack as the CALL left it, then a RET: PC is again the one right
after the CALL was fetched, and SP is as before. -/
def Obligations.CallThenRetRestoresPc : Prop :=
  ∀ (nnn : Addr) (s : State), s.sp.val < 16 → ∃ t, exec (.call nnn) s = .next t ∧
    ∀ u : State, u.stack = t.stack → u.sp = t.sp →
      ∃ r, exec .ret u = .next r ∧ r.pc = s.pc ∧ r.sp = s.sp

/-- R108: JP V0 sets PC to the unreduced sum of its address and V0, or Vx under the parameter. -/
def Obligations.JpV0AddsTheOffsetRegister : Prop :=
  (∀ w : Word, w &&& 0xF000 = 0xB000 → decode w = some (.jpV0 (w.extractLsb' 0 12))) ∧
  ∀ (nnn : Addr) (s : State), ∃ t, exec (.jpV0 nnn) s = .next t ∧
    (s.params.jumpOffsetReg = .v0 → t.pc.toNat = nnn.toNat + (s.getV 0x0).toNat) ∧
    (s.params.jumpOffsetReg = .vx → t.pc.toNat = nnn.toNat + (s.getV (nnn.extractLsb' 8 4)).toNat) ∧
    t = { s with pc := t.pc }

/-- R104, R105: the skips on a byte immediate. -/
def Obligations.SkipsOnAByte : Prop :=
  (∀ w : Word, w &&& 0xF000 = 0x3000 → decode w = some (.seImm (w.extractLsb' 8 4) (w.extractLsb' 0 8))) ∧
  (∀ w : Word, w &&& 0xF000 = 0x4000 → decode w = some (.sneImm (w.extractLsb' 8 4) (w.extractLsb' 0 8))) ∧
  ∀ (x : Nibble) (nn : Byte) (s : State),
    (s.getV x = nn → exec (.seImm x nn) s = .next { s with pc := s.pc + 2 } ∧ exec (.sneImm x nn) s = .next s) ∧
    (s.getV x ≠ nn → exec (.seImm x nn) s = .next s ∧ exec (.sneImm x nn) s = .next { s with pc := s.pc + 2 })

/-- R106, R107: the skips on two registers; their words have a low nibble of 0, and with another they are illegal. -/
def Obligations.SkipsOnTwoRegisters : Prop :=
  (∀ w : Word, w &&& 0xF00F = 0x5000 → decode w = some (.seReg (w.extractLsb' 8 4) (w.extractLsb' 4 4))) ∧
  (∀ w : Word, w &&& 0xF00F = 0x9000 → decode w = some (.sneReg (w.extractLsb' 8 4) (w.extractLsb' 4 4))) ∧
  (∀ w : Word, w &&& 0xF000 = 0x5000 ∨ w &&& 0xF000 = 0x9000 → w &&& 0x000F ≠ 0 → decode w = none) ∧
  ∀ (x y : Nibble) (s : State),
    (s.getV x = s.getV y →
      exec (.seReg x y) s = .next { s with pc := s.pc + 2 } ∧ exec (.sneReg x y) s = .next s) ∧
    (s.getV x ≠ s.getV y →
      exec (.seReg x y) s = .next s ∧ exec (.sneReg x y) s = .next { s with pc := s.pc + 2 })

/-- R103: a step whose skip condition holds moves PC 4 on from the fetch address and changes nothing else, whatever word
or end of memory follows. -/
def Obligations.SkipPassesOneInstruction : Prop :=
  ∀ (s : State) (i : Instr), s.Running → s.FetchInside → decode s.wordAtPc = some i →
    ((∃ x nn, i = .seImm x nn ∧ s.getV x = nn) ∨ (∃ x nn, i = .sneImm x nn ∧ s.getV x ≠ nn) ∨
     (∃ x y, i = .seReg x y ∧ s.getV x = s.getV y) ∨ (∃ x y, i = .sneReg x y ∧ s.getV x ≠ s.getV y) ∨
     (∃ x k, i = .skp x ∧ (s.getV x).toNat = k.toNat ∧ s.key k = true) ∨
     (∃ x k, i = .sknp x ∧ (s.getV x).toNat = k.toNat ∧ s.key k = false)) →
    step s = .next { s with pc := s.pc + 4 }

/-! Registers and arithmetic -/

/-- R131, R133: the register loads. -/
def Obligations.LoadsWriteOneRegister : Prop :=
  (∀ w : Word, w &&& 0xF000 = 0x6000 → decode w = some (.ldImm (w.extractLsb' 8 4) (w.extractLsb' 0 8))) ∧
  (∀ w : Word, w &&& 0xF00F = 0x8000 → decode w = some (.ldReg (w.extractLsb' 8 4) (w.extractLsb' 4 4))) ∧
  (∀ (x : Nibble) (nn : Byte) (s : State), ∃ t, exec (.ldImm x nn) s = .next t ∧
    (∀ z, t.getV z = if z = x then nn else s.getV z) ∧ t = { s with v := t.v }) ∧
  ∀ (x y : Nibble) (s : State), ∃ t, exec (.ldReg x y) s = .next t ∧
    (∀ z, t.getV z = if z = x then s.getV y else s.getV z) ∧ t = { s with v := t.v }

/-- R132: ADD Vx, nn wraps modulo 256 and writes no flag. -/
def Obligations.AddByteWrapsWithoutFlag : Prop :=
  (∀ w : Word, w &&& 0xF000 = 0x7000 → decode w = some (.addImm (w.extractLsb' 8 4) (w.extractLsb' 0 8))) ∧
  ∀ (x : Nibble) (nn : Byte) (s : State), ∃ t, exec (.addImm x nn) s = .next t ∧
    (t.getV x).toNat = ((s.getV x).toNat + nn.toNat) % 256 ∧ (∀ z, z ≠ x → t.getV z = s.getV z) ∧
    t = { s with v := t.v }

/-- R134, R135, R136, R137: OR, AND and XOR write the result; VF is cleared after it only under the parameter. -/
def Obligations.LogicWritesTheResult : Prop :=
  (∀ w : Word, w &&& 0xF00F = 0x8001 → decode w = some (.orReg (w.extractLsb' 8 4) (w.extractLsb' 4 4))) ∧
  (∀ w : Word, w &&& 0xF00F = 0x8002 → decode w = some (.andReg (w.extractLsb' 8 4) (w.extractLsb' 4 4))) ∧
  (∀ w : Word, w &&& 0xF00F = 0x8003 → decode w = some (.xorReg (w.extractLsb' 8 4) (w.extractLsb' 4 4))) ∧
  ∀ (x y : Nibble) (s : State),
    (∃ t, exec (.orReg x y) s = .next t ∧ t = { s with v := t.v } ∧ ∀ z,
      t.getV z = if s.params.logicVfReset = true ∧ z = vf then 0
        else if z = x then s.getV x ||| s.getV y else s.getV z) ∧
    (∃ t, exec (.andReg x y) s = .next t ∧ t = { s with v := t.v } ∧ ∀ z,
      t.getV z = if s.params.logicVfReset = true ∧ z = vf then 0
        else if z = x then s.getV x &&& s.getV y else s.getV z) ∧
    (∃ t, exec (.xorReg x y) s = .next t ∧ t = { s with v := t.v } ∧ ∀ z,
      t.getV z = if s.params.logicVfReset = true ∧ z = vf then 0
        else if z = x then s.getV x ^^^ s.getV y else s.getV z)

/-- R139: ADD Vx, Vy is the sum modulo 256 with the carry in VF, which wins when x is F. -/
def Obligations.AddSetsTheCarry : Prop :=
  (∀ w : Word, w &&& 0xF00F = 0x8004 → decode w = some (.addReg (w.extractLsb' 8 4) (w.extractLsb' 4 4))) ∧
  ∀ (x y : Nibble) (s : State), ∃ t, exec (.addReg x y) s = .next t ∧
    t.getV vf = (if 255 < (s.getV x).toNat + (s.getV y).toNat then 1 else 0) ∧
    (x ≠ vf → (t.getV x).toNat = ((s.getV x).toNat + (s.getV y).toNat) % 256) ∧
    (∀ z, z ≠ x → z ≠ vf → t.getV z = s.getV z) ∧ t = { s with v := t.v }

/-- R140: SUB Vx, Vy is Vx - Vy modulo 256 with the not-borrow in VF, which wins when x is F. -/
def Obligations.SubSetsTheNotBorrow : Prop :=
  (∀ w : Word, w &&& 0xF00F = 0x8005 → decode w = some (.subReg (w.extractLsb' 8 4) (w.extractLsb' 4 4))) ∧
  ∀ (x y : Nibble) (s : State), ∃ t, exec (.subReg x y) s = .next t ∧
    t.getV vf = (if (s.getV y).toNat ≤ (s.getV x).toNat then 1 else 0) ∧
    (x ≠ vf → (t.getV x).toNat = (256 + (s.getV x).toNat - (s.getV y).toNat) % 256) ∧
    (∀ z, z ≠ x → z ≠ vf → t.getV z = s.getV z) ∧ t = { s with v := t.v }

/-- R142: SUBN Vx, Vy is Vy - Vx modulo 256 with the not-borrow in VF, which wins when x is F. -/
def Obligations.SubnSetsTheNotBorrow : Prop :=
  (∀ w : Word, w &&& 0xF00F = 0x8007 → decode w = some (.subnReg (w.extractLsb' 8 4) (w.extractLsb' 4 4))) ∧
  ∀ (x y : Nibble) (s : State), ∃ t, exec (.subnReg x y) s = .next t ∧
    t.getV vf = (if (s.getV x).toNat ≤ (s.getV y).toNat then 1 else 0) ∧
    (x ≠ vf → (t.getV x).toNat = (256 + (s.getV y).toNat - (s.getV x).toNat) % 256) ∧
    (∀ z, z ≠ x → z ≠ vf → t.getV z = s.getV z) ∧ t = { s with v := t.v }

/-- R141: SHR Vx halves Vx in place, whatever the y nibble, with the lowest bit in VF, which wins when x is F. -/
def Obligations.ShrMovesTheLowBitOut : Prop :=
  (∀ w : Word, w &&& 0xF00F = 0x8006 → decode w = some (.shr (w.extractLsb' 8 4))) ∧
  ∀ (x : Nibble) (s : State), ∃ t, exec (.shr x) s = .next t ∧
    (t.getV vf).toNat = (s.getV x).toNat % 2 ∧ (x ≠ vf → (t.getV x).toNat = (s.getV x).toNat / 2) ∧
    (∀ z, z ≠ x → z ≠ vf → t.getV z = s.getV z) ∧ t = { s with v := t.v }

/-- R143: SHL Vx doubles Vx modulo 256 in place, whatever the y nibble, with the highest bit in VF, which wins when x
is F. -/
def Obligations.ShlMovesTheHighBitOut : Prop :=
  (∀ w : Word, w &&& 0xF00F = 0x800E → decode w = some (.shl (w.extractLsb' 8 4))) ∧
  ∀ (x : Nibble) (s : State), ∃ t, exec (.shl x) s = .next t ∧
    (t.getV vf).toNat = (s.getV x).toNat / 128 ∧
    (x ≠ vf → (t.getV x).toNat = 2 * (s.getV x).toNat % 256) ∧
    (∀ z, z ≠ x → z ≠ vf → t.getV z = s.getV z) ∧ t = { s with v := t.v }

/-- RND writes the random byte AND nn. With the host's byte, as in STEP(rnd), this is the rule of RND (R145); that the bare
step uses some byte, and that only the model's own count of draws records it, is the model's choice (log entry 1). -/
def Obligations.RndMasksTheRandomByte : Prop :=
  (∀ w : Word, w &&& 0xF000 = 0xC000 → decode w = some (.rnd (w.extractLsb' 8 4) (w.extractLsb' 0 8))) ∧
  (∀ (b nn : Byte) (x : Nibble) (s : State), ∃ t, execGiven b (.rnd x nn) s = .next t ∧
    (∀ z, t.getV z = if z = x then b &&& nn else s.getV z) ∧ t = { s with v := t.v }) ∧
  ∀ (nn : Byte) (x : Nibble) (s : State), ∃ (t : State) (b : Byte), exec (.rnd x nn) s = .next t ∧
    (∀ z, t.getV z = if z = x then b &&& nn else s.getV z) ∧
    t = { s with v := t.v, draws := t.draws }

/-! The address register and memory -/

/-- R170: LD I. -/
def Obligations.LdISetsI : Prop :=
  (∀ w : Word, w &&& 0xF000 = 0xA000 → decode w = some (.ldI (w.extractLsb' 0 12))) ∧
  ∀ (nnn : Addr) (s : State), ∃ t, exec (.ldI nnn) s = .next t ∧
    t.i.toNat = nnn.toNat ∧ t = { s with i := t.i }

/-- R171: ADD I, Vx is modulo 2^16, writes no flag and faults on no value. -/
def Obligations.AddIWrapsWithoutFlag : Prop :=
  (∀ w : Word, w &&& 0xF0FF = 0xF01E → decode w = some (.addI (w.extractLsb' 8 4))) ∧
  ∀ (x : Nibble) (s : State), ∃ t, exec (.addI x) s = .next t ∧
    t.i.toNat = (s.i.toNat + (s.getV x).toNat) % 65536 ∧ t = { s with i := t.i }

/-- R172: LD F is five times the digit, the whole byte or its low nibble by the parameter. -/
def Obligations.LdFFindsTheGlyph : Prop :=
  (∀ w : Word, w &&& 0xF0FF = 0xF029 → decode w = some (.ldF (w.extractLsb' 8 4))) ∧
  ∀ (x : Nibble) (s : State), ∃ t, exec (.ldF x) s = .next t ∧
    (s.params.fontDigitMask = false → t.i.toNat = (s.getV x).toNat * 5) ∧
    (s.params.fontDigitMask = true → t.i.toNat = (s.getV x).toNat % 16 * 5) ∧ t = { s with i := t.i }

/-- R55: MemRead and MemWrite work at every address below 4096, a read gives what was last written there, a write changes
no other byte; at 4096 and above both fault with the address. -/
def Obligations.MemoryReadsBackWrites : Prop :=
  ∀ (s : State) (a : Nat) (b : Byte),
    (a < 4096 → ∃ t, memWriteChecked s a b = .ok t ∧ memReadChecked t a = .ok b ∧
      (∀ z, z ≠ a → memReadChecked t z = memReadChecked s z) ∧ t = { s with mem := t.mem }) ∧
    (4096 ≤ a → memReadChecked s a = .error (.memoryOutOfBounds a) ∧
      memWriteChecked s a b = .error (.memoryOutOfBounds a))

/-- R173: the block accesses check every address first: the lowest one outside memory faults with nothing written, and
a block inside memory completes with I unchanged. -/
def Obligations.BlockAccessesCheckFirst : Prop :=
  ∀ (i : Instr) (n : Nat) (s : State),
    ((∃ x, i = .ldB x ∧ n = 3) ∨ (∃ x, i = .storeRegs x ∧ n = x.toNat + 1) ∨
     (∃ x, i = .loadRegs x ∧ n = x.toNat + 1) ∨ ∃ x y m, i = .drw x y m ∧ n = m.toNat) →
    (∀ k, k < n → 4096 ≤ s.i.toNat + k → (∀ j, j < k → s.i.toNat + j < 4096) →
      exec i s = .next { s with pc := s.pc - 2, fault := some (.memoryOutOfBounds (s.i.toNat + k)) }) ∧
    ((∀ k, k < n → s.i.toNat + k < 4096) → ∃ t, exec i s = .next t ∧ t.i = s.i ∧ t.pc = s.pc ∧ t.fault = s.fault)

/-- R174: LD B writes the three decimal digits at I, I+1, I+2 and no other byte; a block that ends outside memory
faults with the lowest bad address and changes nothing else. -/
def Obligations.LdBWritesDecimalDigits : Prop :=
  (∀ w : Word, w &&& 0xF0FF = 0xF033 → decode w = some (.ldB (w.extractLsb' 8 4))) ∧
  ∀ (x : Nibble) (s : State),
    (s.i.toNat + 2 < 4096 → ∃ t, exec (.ldB x) s = .next t ∧
      (t.readByte s.i.toNat).toNat = (s.getV x).toNat / 100 ∧
      (t.readByte (s.i.toNat + 1)).toNat = (s.getV x).toNat / 10 % 10 ∧
      (t.readByte (s.i.toNat + 2)).toNat = (s.getV x).toNat % 10 ∧
      (∀ a, a < s.i.toNat ∨ s.i.toNat + 2 < a → t.readByte a = s.readByte a) ∧ t = { s with mem := t.mem }) ∧
    (4096 ≤ s.i.toNat + 2 → exec (.ldB x) s =
      .next { s with pc := s.pc - 2, fault := some (.memoryOutOfBounds (max s.i.toNat 4096)) })

/-- R178: LD [I], Vx stores V0..Vx at I, I+1, ... and no other byte; a block that ends outside memory faults with the
lowest bad address and changes nothing else. -/
def Obligations.StoreRegsWritesTheBlock : Prop :=
  (∀ w : Word, w &&& 0xF0FF = 0xF055 → decode w = some (.storeRegs (w.extractLsb' 8 4))) ∧
  ∀ (x : Nibble) (s : State),
    (s.i.toNat + x.toNat < 4096 → ∃ t, exec (.storeRegs x) s = .next t ∧
      (∀ z : Nibble, z.toNat ≤ x.toNat → t.readByte (s.i.toNat + z.toNat) = s.getV z) ∧
      (∀ a, a < s.i.toNat ∨ s.i.toNat + x.toNat < a → t.readByte a = s.readByte a) ∧
      t = { s with mem := t.mem }) ∧
    (4096 ≤ s.i.toNat + x.toNat → exec (.storeRegs x) s =
      .next { s with pc := s.pc - 2, fault := some (.memoryOutOfBounds (max s.i.toNat 4096)) })

/-- R179: LD Vx, [I] loads V0..Vx from I, I+1, ... and no other register; a block that ends outside memory faults with
the lowest bad address and changes nothing else. -/
def Obligations.LoadRegsReadsTheBlock : Prop :=
  (∀ w : Word, w &&& 0xF0FF = 0xF065 → decode w = some (.loadRegs (w.extractLsb' 8 4))) ∧
  ∀ (x : Nibble) (s : State),
    (s.i.toNat + x.toNat < 4096 → ∃ t, exec (.loadRegs x) s = .next t ∧
      (∀ z, t.getV z = if z.toNat ≤ x.toNat then s.readByte (s.i.toNat + z.toNat) else s.getV z) ∧
      t = { s with v := t.v }) ∧
    (4096 ≤ s.i.toNat + x.toNat → exec (.loadRegs x) s =
      .next { s with pc := s.pc - 2, fault := some (.memoryOutOfBounds (max s.i.toNat 4096)) })

/-- R178, R179: a block stored and loaded again at the same I gives back the registers, whatever they hold between. -/
def Obligations.StoreThenLoadRestoresRegisters : Prop :=
  ∀ (x : Nibble) (s : State), s.i.toNat + x.toNat < 4096 → ∃ t, exec (.storeRegs x) s = .next t ∧
    ∀ u : State, u.mem = t.mem → u.params = t.params → u.i = t.i → ∃ r, exec (.loadRegs x) u = .next r ∧
      ∀ z : Nibble, z.toNat ≤ x.toNat → r.getV z = s.getV z

/-- R60: a block stored over the next instruction is what the next step runs. -/
def Obligations.StoredInstructionIsFetchedNext : Prop :=
  ∀ (x : Nibble) (i : Instr) (s : State), s.Running → s.FetchInside →
    decode s.wordAtPc = some (.storeRegs x) → s.i = s.pc + 2 → s.pc.toNat + 3 < 4096 →
    1 ≤ x.toNat → s.i.toNat + x.toNat < 4096 → decode (wordOfBytes (s.getV 0x0) (s.getV 0x1)) = some i →
    ∃ t, step s = .next t ∧ t.pc = s.pc + 2 ∧ step t = exec i { t with pc := t.pc + 2 }

/-! Display -/

/-- R200: CLS. -/
def Obligations.ClsClearsTheFramebuffer : Prop :=
  (∀ w : Word, decode w = some .cls ↔ w = 0x00E0) ∧
  ∀ s : State, ∃ t, exec .cls s = .next t ∧ (∀ k : Fin 2048, t.fb[k.val] = false) ∧ t = { s with fb := t.fb }

/-- R201, R202: DRW flips exactly the cells its sprite's set bits land on, both coordinates wrapped, and VF says whether
one of them was lit; it changes nothing else. A block that ends outside memory faults and changes nothing else. -/
def Obligations.DrwFlipsTheSpriteCells : Prop :=
  (∀ w : Word, w &&& 0xF000 = 0xD000 →
    decode w = some (.drw (w.extractLsb' 8 4) (w.extractLsb' 4 4) (w.extractLsb' 0 4))) ∧
  ∀ (x y n : Nibble) (s : State) (hit : Fin 2048 → Prop),
    (∀ k, hit k ↔ ∃ r c, r < n.toNat ∧ c < 8 ∧ (s.readByte (s.i.toNat + r)).getLsbD (7 - c) = true ∧
      k.val = ((s.getV x).toNat + c) % 64 + 64 * (((s.getV y).toNat + r) % 32)) →
    (n.toNat = 0 ∨ s.i.toNat + n.toNat ≤ 4096 → ∃ t, exec (.drw x y n) s = .next t ∧
      (∀ k, hit k → t.fb[k.val] = !s.fb[k.val]) ∧ (∀ k, ¬ hit k → t.fb[k.val] = s.fb[k.val]) ∧
      ((∃ k, hit k ∧ s.fb[k.val] = true) → t.getV vf = 1) ∧
      ((∀ k, hit k → s.fb[k.val] = false) → t.getV vf = 0) ∧
      (∀ z, z ≠ vf → t.getV z = s.getV z) ∧ t = { s with v := t.v, fb := t.fb }) ∧
    (1 ≤ n.toNat → 4096 < s.i.toNat + n.toNat → exec (.drw x y n) s =
      .next { s with pc := s.pc - 2, fault := some (.memoryOutOfBounds (max s.i.toNat 4096)) })

/-- On an unlit framebuffer (R203 and what it derives from R202) DRW sets no collision; drawn again at the same place the framebuffer is as before, and
the second collision is that the sprite has a set bit and the framebuffer was unlit; a sprite at column 63 has its second
column at 0. As in R203's proviso, x and y are not F: there the first draw's VF write moves the sprite. -/
def Obligations.RasterizerLaws : Prop :=
  ∀ (x y n : Nibble) (s : State), x ≠ vf → y ≠ vf → (n.toNat = 0 ∨ s.i.toNat + n.toNat ≤ 4096) →
    ∃ t u, exec (.drw x y n) s = .next t ∧ exec (.drw x y n) t = .next u ∧ u.fb = s.fb ∧
      ((∀ k : Fin 2048, s.fb[k.val] = false) → t.getV vf = 0 ∧
        ((∃ r, r < n.toNat ∧ s.readByte (s.i.toNat + r) ≠ 0) → u.getV vf = 1) ∧
        ((∀ r, r < n.toNat → s.readByte (s.i.toNat + r) = 0) → u.getV vf = 0)) ∧
      ((s.getV x).toNat = 63 → 1 ≤ n.toNat → (s.readByte s.i.toNat).getLsbD 6 = true →
        ∀ k : Fin 2048, k.val = 64 * ((s.getV y).toNat % 32) → t.fb[k.val] = !s.fb[k.val])

/-! Keys and timers -/

/-- R220, R221: the key skips; an index above 15 faults and changes nothing else. -/
def Obligations.SkipsOnAKey : Prop :=
  (∀ w : Word, w &&& 0xF0FF = 0xE09E → decode w = some (.skp (w.extractLsb' 8 4))) ∧
  (∀ w : Word, w &&& 0xF0FF = 0xE0A1 → decode w = some (.sknp (w.extractLsb' 8 4))) ∧
  (∀ (x k : Nibble) (s : State), (s.getV x).toNat = k.toNat →
    (s.key k = true → exec (.skp x) s = .next { s with pc := s.pc + 2 } ∧ exec (.sknp x) s = .next s) ∧
    (s.key k = false → exec (.skp x) s = .next s ∧ exec (.sknp x) s = .next { s with pc := s.pc + 2 })) ∧
  ∀ (x : Nibble) (s : State), 15 < (s.getV x).toNat →
    exec (.skp x) s = .next { s with pc := s.pc - 2, fault := some (.keyIndexOutOfRange (s.getV x)) } ∧
    exec (.sknp x) s = .next { s with pc := s.pc - 2, fault := some (.keyIndexOutOfRange (s.getV x)) }

/-- R222: LD Vx, K takes the lowest pressed key; with none pressed the whole step changes nothing. -/
def Obligations.LdKeyTakesTheLowestKey : Prop :=
  (∀ w : Word, w &&& 0xF0FF = 0xF00A → decode w = some (.ldKey (w.extractLsb' 8 4))) ∧
  (∀ (x k : Nibble) (s : State), s.key k = true → (∀ j : Nibble, j.toNat < k.toNat → s.key j = false) →
    ∃ t, exec (.ldKey x) s = .next t ∧ (t.getV x).toNat = k.toNat ∧ (∀ z, z ≠ x → t.getV z = s.getV z) ∧
      t = { s with v := t.v }) ∧
  ∀ (x : Nibble) (s : State), (∀ j : Nibble, s.key j = false) →
    exec (.ldKey x) s = .next { s with pc := s.pc - 2 } ∧
    (s.Running → s.FetchInside → decode s.wordAtPc = some (.ldKey x) → step s = .next s)

/-- R223, R224, R225: the timer moves; writing ST does nothing but write it. -/
def Obligations.TimerMoves : Prop :=
  (∀ w : Word, w &&& 0xF0FF = 0xF007 → decode w = some (.ldFromDT (w.extractLsb' 8 4))) ∧
  (∀ w : Word, w &&& 0xF0FF = 0xF015 → decode w = some (.ldDT (w.extractLsb' 8 4))) ∧
  (∀ w : Word, w &&& 0xF0FF = 0xF018 → decode w = some (.ldST (w.extractLsb' 8 4))) ∧
  ∀ (x : Nibble) (s : State),
    (∃ t, exec (.ldFromDT x) s = .next t ∧ (∀ z, t.getV z = if z = x then s.dt else s.getV z) ∧
      t = { s with v := t.v }) ∧
    exec (.ldDT x) s = .next { s with dt := s.getV x } ∧ exec (.ldST x) s = .next { s with st := s.getV x }

/-! The host's operations -/

/-- R256: TICK_DELAY counts DT down by one, never below zero, and changes nothing else. -/
def Obligations.TickDelayCountsDown : Prop :=
  ∀ s : State, ∃ t, hostApply .tickDelay s = (t, .nothing) ∧ t.dt.toNat = s.dt.toNat - 1 ∧ t = { s with dt := t.dt }

/-- R257: TICK_SOUND counts ST down by one, never below zero, changes nothing else, and signals exactly when ST was 1;
the tick after such a one signals nothing. -/
def Obligations.TickSoundSignalsOnce : Prop :=
  ∀ s : State, ∃ (t : State) (on : Bool), hostApply .tickSound s = (t, .sound on) ∧ (on = true ↔ s.st.toNat = 1) ∧
    t.st.toNat = s.st.toNat - 1 ∧ t = { s with st := t.st } ∧
    (on = true → hostApply .tickSound t = (t, .sound false))

/-- R260: SET_KEY overwrites one key, the last write wins, and an index above 15 is an error that changes nothing. -/
def Obligations.SetKeyOverwritesOneKey : Prop :=
  ∀ (n : Nat) (p q : Bool) (s : State),
    (15 < n → hostApply (.setKey n p) s = (s, .keyIndexInvalid n)) ∧
    (n ≤ 15 → ∃ t, hostApply (.setKey n p) s = (t, .ok) ∧
      (∀ k : Nibble, t.key k = if k.toNat = n then p else s.key k) ∧ t = { s with keys := t.keys } ∧
      hostApply (.setKey n q) t = hostApply (.setKey n q) s)

/-- R33, R280: RESET, in every state, sets every component to its reset value and returns nothing. -/
def Obligations.ResetSetsEveryComponent : Prop :=
  ∀ s : State, ∃ t, hostApply .reset s = (t, .nothing) ∧
    (∀ x, t.getV x = 0) ∧ t.i = 0 ∧ t.pc = 0x200 ∧ (∀ k : Fin 16, t.stack[k.val] = 0) ∧ t.sp = 0 ∧
    t.dt = 0 ∧ t.st = 0 ∧ (∀ k, t.key k = false) ∧ (∀ k : Fin 2048, t.fb[k.val] = false) ∧ t.fault = none ∧
    (∀ a : Fin 80, t.readByte a.val = s.params.glyphTable[a.val]) ∧ (∀ a, 80 ≤ a → t.readByte a = 0)

/-- R284: LOAD copies at most 3584 bytes to 0x200 on, sets PC to 0x200 and changes nothing else; more bytes are an error
that changes nothing. -/
def Obligations.LoadCopiesTheProgram : Prop :=
  ∀ (bytes : List Byte) (s : State),
    (3584 < bytes.length → hostApply (.load bytes) s = (s, .loadSizeViolation bytes.length)) ∧
    (bytes.length ≤ 3584 → ∃ t, hostApply (.load bytes) s = (t, .ok) ∧ t.pc = 0x200 ∧
      (∀ k b, bytes[k]? = some b → t.readByte (0x200 + k) = b) ∧
      (∀ a, a < 0x200 ∨ 0x200 + bytes.length ≤ a → t.readByte a = s.readByte a) ∧
      t = { s with mem := t.mem, pc := t.pc })

/-- R284, R286: after a LOAD the next step runs the instruction of the first two bytes. -/
def Obligations.LoadedProgramRunsFirst : Prop :=
  ∀ (hi lo : Byte) (rest : List Byte) (i : Instr) (s : State), rest.length ≤ 3582 → s.Running →
    decode (wordOfBytes hi lo) = some i →
    step (hostApply (.load (hi :: lo :: rest)) s).1 =
      exec i { (hostApply (.load (hi :: lo :: rest)) s).1 with pc := 0x202 }

/-! Whole-machine rules -/

/-- R23, R25, R26, R27, R28, R60, R61: each component but the general registers, PC and the latch is written only by the
instructions the rules name, and no instruction writes a key. The clauses on the model's own fields are its choice: nothing
writes a parameter (log entry 2), and of instructions only the bare step's RND moves the draw count, of host operations none
(log entry 1). -/
def Obligations.ComponentsHaveTheirWriters : Prop :=
  (∀ (i : Instr) (s t : State), exec i s = .next t →
    (t.i ≠ s.i → (∃ nnn, i = .ldI nnn) ∨ ∃ x, i = .addI x ∨ i = .ldF x) ∧
    (t.stack ≠ s.stack → ∃ nnn, i = .call nnn) ∧ (t.sp ≠ s.sp → i = .ret ∨ ∃ nnn, i = .call nnn) ∧
    (t.dt ≠ s.dt → ∃ x, i = .ldDT x) ∧ (t.st ≠ s.st → ∃ x, i = .ldST x) ∧ t.keys = s.keys ∧
    (t.fb ≠ s.fb → i = .cls ∨ ∃ x y n, i = .drw x y n) ∧
    (t.mem ≠ s.mem → ∃ x, i = .ldB x ∨ i = .storeRegs x) ∧ t.params = s.params ∧
    (t.draws ≠ s.draws → ∃ x nn, i = .rnd x nn)) ∧
  ∀ (op : HostOp) (s : State), (hostApply op s).1.params = s.params ∧ (hostApply op s).1.draws = s.draws

/-- R22: an instruction that changes VF writes it as a flag, or as a logic instruction under the parameter, or as its
own destination register. -/
def Obligations.VfHasItsWriters : Prop :=
  ∀ (i : Instr) (s t : State), exec i s = .next t → t.getV vf ≠ s.getV vf →
    (∃ x y, i = .addReg x y ∨ i = .subReg x y ∨ i = .subnReg x y) ∨ (∃ x, i = .shr x ∨ i = .shl x) ∨
    (∃ x y n, i = .drw x y n) ∨
    (∃ x y, (i = .orReg x y ∨ i = .andReg x y ∨ i = .xorReg x y) ∧ (s.params.logicVfReset = true ∨ x = vf)) ∨
    (∃ nn, i = .ldImm vf nn ∨ i = .addImm vf nn ∨ i = .rnd vf nn) ∨ (∃ y, i = .ldReg vf y) ∨
    i = .ldFromDT vf ∨ i = .ldKey vf ∨ i = .loadRegs vf

/-- R262: READ_FB returns the framebuffer and changes nothing, and the framebuffer is stable: it is changed only by RESET
and by a STEP that runs CLS or DRW (R28, R203). -/
def Obligations.FramebufferIsStable : Prop :=
  (∀ s : State, hostApply .readFb s = (s, .framebuffer s.fb)) ∧
  ∀ (op : HostOp) (s : State), (hostApply op s).1.fb ≠ s.fb →
    op = .reset ∨ ∃ b, op = .step b ∧ s.Running ∧ s.FetchInside ∧
      (decode s.wordAtPc = some .cls ∨ ∃ x y n, decode s.wordAtPc = some (.drw x y n))

/-- R26: no instruction reads ST: an instruction on a state with another ST does the same, and keeps that ST unless it
is LD ST, Vx. -/
def Obligations.NoInstructionReadsST : Prop :=
  ∀ (i : Instr) (s t : State) (b : Byte), exec i s = .next t →
    ((∃ x, i = .ldST x) → exec i { s with st := b } = .next t) ∧
    ((∀ x, i ≠ .ldST x) → exec i { s with st := b } = .next { t with st := b })

/-- R25: a slot at or above SP is observable by no instruction: two machines that differ in such slots only step alike,
and again differ in such slots only. -/
def Obligations.DeadSlotsAreUnobservable : Prop :=
  ∀ s s' t : State, s' = { s with stack := s'.stack } →
    (∀ k : Fin 16, k.val < s.sp.val → s'.stack[k.val] = s.stack[k.val]) → step s = .next t →
    ∃ t', step s' = .next t' ∧ t' = { t with stack := t'.stack } ∧
      ∀ k : Fin 16, k.val < t.sp.val → t'.stack[k.val] = t.stack[k.val]
end

