-- ==== Sys2Proof/Laws/Decode.lean ====
section
/-! SUPPORT. The fields of words put together and taken apart (spec/30_encoding.md R74, R76). -/

namespace Sys2Proof

theorem getLsbD_addrOf (b c d : Nibble) (k : Nat) : (addrOf b c d).getLsbD k =
    if k < 4 + 4 then if k < 4 then d.getLsbD k else c.getLsbD (k - 4) else b.getLsbD (k - (4 + 4)) := by
  show (b ++ (c ++ d) : BitVec (4 + (4 + 4))).getLsbD k = _
  simp only [BitVec.getLsbD_append]

theorem getLsbD_byteOf (c d : Nibble) (k : Nat) : (byteOf c d).getLsbD k =
    if k < 4 then d.getLsbD k else c.getLsbD (k - 4) := by
  show (c ++ d : BitVec (4 + 4)).getLsbD k = _
  simp only [BitVec.getLsbD_append]

theorem getLsbD_wordOf (a b c d : Nibble) (k : Nat) : (wordOf a b c d).getLsbD k =
    if k < 4 + (4 + 4) then (addrOf b c d).getLsbD k else a.getLsbD (k - (4 + (4 + 4))) := by
  rw [getLsbD_addrOf]
  show (a ++ (b ++ (c ++ d)) : BitVec (4 + (4 + (4 + 4)))).getLsbD k = _
  simp only [BitVec.getLsbD_append]

theorem getLsbD_wordOfBytes (hi lo : Byte) (k : Nat) : (wordOfBytes hi lo).getLsbD k =
    if k < 8 then lo.getLsbD k else hi.getLsbD (k - 8) := by
  show (hi ++ lo : BitVec (8 + 8)).getLsbD k = _
  simp only [BitVec.getLsbD_append]

@[simp] theorem nibble1_wordOf (a b c d : Nibble) : nibble1 (wordOf a b c d) = a := by
  refine BitVec.eq_of_getLsbD_eq fun k hk => ?_
  interval_cases k <;> simp only [nibble1, getLsbD_wordOf, getLsbD_addrOf, BitVec.getLsbD_extractLsb'] <;> simp

@[simp] theorem nibble2_wordOf (a b c d : Nibble) : nibble2 (wordOf a b c d) = b := by
  refine BitVec.eq_of_getLsbD_eq fun k hk => ?_
  interval_cases k <;> simp only [nibble2, getLsbD_wordOf, getLsbD_addrOf, BitVec.getLsbD_extractLsb'] <;> simp

@[simp] theorem nibble3_wordOf (a b c d : Nibble) : nibble3 (wordOf a b c d) = c := by
  refine BitVec.eq_of_getLsbD_eq fun k hk => ?_
  interval_cases k <;> simp only [nibble3, getLsbD_wordOf, getLsbD_addrOf, BitVec.getLsbD_extractLsb'] <;> simp

@[simp] theorem nibble4_wordOf (a b c d : Nibble) : nibble4 (wordOf a b c d) = d := by
  refine BitVec.eq_of_getLsbD_eq fun k hk => ?_
  interval_cases k <;> simp only [nibble4, getLsbD_wordOf, getLsbD_addrOf, BitVec.getLsbD_extractLsb'] <;> simp

/-- Every word is its four nibbles (R8). -/
theorem wordOf_nibbles (w : Word) : wordOf (nibble1 w) (nibble2 w) (nibble3 w) (nibble4 w) = w := by
  refine BitVec.eq_of_getLsbD_eq fun k hk => ?_
  interval_cases k <;> simp only [nibble1, nibble2, nibble3, nibble4, getLsbD_wordOf, getLsbD_addrOf, BitVec.getLsbD_extractLsb'] <;> simp

/-- Decode of a word given by its nibbles (R73). -/
@[simp] theorem decode_wordOf (a b c d : Nibble) : decode (wordOf a b c d) = decodeNibbles a b c d := by
  simp [decode]

/-- An address operand is its three nibbles (R76). -/
theorem addrOf_nibbles (a : Addr) : addrOf (a.extractLsb' 8 4) (a.extractLsb' 4 4) (a.extractLsb' 0 4) = a := by
  refine BitVec.eq_of_getLsbD_eq fun k hk => ?_
  interval_cases k <;> simp only [getLsbD_addrOf, BitVec.getLsbD_extractLsb'] <;> simp

/-- A byte operand is its two nibbles (R76). -/
theorem byteOf_nibbles (b : Byte) : byteOf (b.extractLsb' 4 4) (b.extractLsb' 0 4) = b := by
  refine BitVec.eq_of_getLsbD_eq fun k hk => ?_
  interval_cases k <;> simp only [getLsbD_byteOf, BitVec.getLsbD_extractLsb'] <;> simp

/-- Format FA by nibbles (R74). -/
theorem encodeFA_eq (o : Nibble) (a : Addr) :
    encodeFA o a = wordOf o (a.extractLsb' 8 4) (a.extractLsb' 4 4) (a.extractLsb' 0 4) := by
  show o ++ a = o ++ addrOf _ _ _
  rw [addrOf_nibbles]

/-- Format FXB by nibbles (R74). -/
theorem encodeFXB_eq (o x : Nibble) (b : Byte) :
    encodeFXB o x b = wordOf o x (b.extractLsb' 4 4) (b.extractLsb' 0 4) := by
  show o ++ (x ++ b) = o ++ (x ++ byteOf _ _)
  rw [byteOf_nibbles]

/-- Format FXF by nibbles (R74). -/
theorem encodeFXF_eq (o x : Nibble) (b : Byte) :
    encodeFXF o x b = wordOf o x (b.extractLsb' 4 4) (b.extractLsb' 0 4) := encodeFXB_eq o x b

/-- The address operand of a word, `nnn = w[11:0]` (R10). -/
theorem addrOf_word (w : Word) : addrOf (nibble2 w) (nibble3 w) (nibble4 w) = w.extractLsb' 0 12 := by
  refine BitVec.eq_of_getLsbD_eq fun k hk => ?_
  interval_cases k <;> simp only [getLsbD_addrOf, nibble2, nibble3, nibble4, BitVec.getLsbD_extractLsb'] <;> simp

/-- The byte operand of a word, `nn = w[7:0]` (R10). -/
theorem byteOf_word (w : Word) : byteOf (nibble3 w) (nibble4 w) = w.extractLsb' 0 8 := by
  refine BitVec.eq_of_getLsbD_eq fun k hk => ?_
  interval_cases k <;> simp only [getLsbD_byteOf, nibble3, nibble4, BitVec.getLsbD_extractLsb'] <;> simp

/-- A word's bytes, put together again (R56). -/
@[simp] theorem wordOfBytes_bytes (w : Word) : wordOfBytes (highByte w) (lowByte w) = w := by
  refine BitVec.eq_of_getLsbD_eq fun k hk => ?_
  interval_cases k <;> simp only [getLsbD_wordOfBytes, highByte, lowByte, BitVec.getLsbD_extractLsb'] <;> simp

/-- The words of two bytes (R56). -/
@[simp] theorem highByte_wordOfBytes (hi lo : Byte) : highByte (wordOfBytes hi lo) = hi := by
  refine BitVec.eq_of_getLsbD_eq fun k hk => ?_
  interval_cases k <;> simp only [getLsbD_wordOfBytes, highByte, BitVec.getLsbD_extractLsb'] <;> simp

@[simp] theorem lowByte_wordOfBytes (hi lo : Byte) : lowByte (wordOfBytes hi lo) = lo := by
  refine BitVec.eq_of_getLsbD_eq fun k hk => ?_
  interval_cases k <;> simp only [getLsbD_wordOfBytes, lowByte, BitVec.getLsbD_extractLsb'] <;> simp

/-- A word AND a mask, nibble by nibble. -/
theorem wordOf_and (a b c d a' b' c' d' : Nibble) :
    wordOf a b c d &&& wordOf a' b' c' d' = wordOf (a &&& a') (b &&& b') (c &&& c') (d &&& d') := by
  rw [← wordOf_nibbles (wordOf a b c d &&& wordOf a' b' c' d')]
  have h (k n : Nat) (v w : Word) : (v &&& w).extractLsb' k n = v.extractLsb' k n &&& w.extractLsb' k n :=
    BitVec.extractLsb'_and
  congr 1
  · exact (h 12 4 _ _).trans (congrArg₂ _ (nibble1_wordOf ..) (nibble1_wordOf ..))
  · exact (h 8 4 _ _).trans (congrArg₂ _ (nibble2_wordOf ..) (nibble2_wordOf ..))
  · exact (h 4 4 _ _).trans (congrArg₂ _ (nibble3_wordOf ..) (nibble3_wordOf ..))
  · exact (h 0 4 _ _).trans (congrArg₂ _ (nibble4_wordOf ..) (nibble4_wordOf ..))

/-- Two words made of nibbles are equal when their nibbles are. -/
theorem wordOf_inj {a b c d a' b' c' d' : Nibble} :
    wordOf a b c d = wordOf a' b' c' d' ↔ a = a' ∧ b = b' ∧ c = c' ∧ d = d' := by
  constructor
  · intro h
    have h1 := congrArg nibble1 h
    have h2 := congrArg nibble2 h
    have h3 := congrArg nibble3 h
    have h4 := congrArg nibble4 h
    simp only [nibble1_wordOf, nibble2_wordOf, nibble3_wordOf, nibble4_wordOf] at h1 h2 h3 h4
    exact ⟨h1, h2, h3, h4⟩
  · rintro ⟨rfl, rfl, rfl, rfl⟩; rfl

theorem nibble_and_F (a : Nibble) : a &&& 0xF = a := by revert a; decide
theorem nibble_and_0 (a : Nibble) : a &&& 0x0 = 0x0 := by revert a; decide

/-- A word selects a row of mask 0xF000 by its major nibble (R77). -/
theorem and_F000 (w : Word) (p : Nibble) : w &&& 0xF000 = wordOf p 0 0 0 ↔ nibble1 w = p := by
  have h := wordOf_and (nibble1 w) (nibble2 w) (nibble3 w) (nibble4 w) 0xF 0 0 0
  rw [wordOf_nibbles, nibble_and_F, nibble_and_0, nibble_and_0, nibble_and_0] at h
  rw [show (0xF000 : Word) = wordOf 0xF 0 0 0 by decide, h, wordOf_inj]
  simp

/-- A word selects a row of mask 0xF00F by its major and its last nibble (R77). -/
theorem and_F00F (w : Word) (p q : Nibble) : w &&& 0xF00F = wordOf p 0 0 q ↔ nibble1 w = p ∧ nibble4 w = q := by
  have h := wordOf_and (nibble1 w) (nibble2 w) (nibble3 w) (nibble4 w) 0xF 0 0 0xF
  rw [wordOf_nibbles, nibble_and_F, nibble_and_0, nibble_and_0, nibble_and_F] at h
  rw [show (0xF00F : Word) = wordOf 0xF 0 0 0xF by decide, h, wordOf_inj]
  simp

/-- A word selects a row of mask 0xF0FF by its major nibble and its function byte (R77). -/
theorem and_F0FF (w : Word) (p q r : Nibble) :
    w &&& 0xF0FF = wordOf p 0 q r ↔ nibble1 w = p ∧ nibble3 w = q ∧ nibble4 w = r := by
  have h := wordOf_and (nibble1 w) (nibble2 w) (nibble3 w) (nibble4 w) 0xF 0 0xF 0xF
  rw [wordOf_nibbles, nibble_and_F, nibble_and_0, nibble_and_F, nibble_and_F] at h
  rw [show (0xF0FF : Word) = wordOf 0xF 0 0xF 0xF by decide, h, wordOf_inj]
  simp

/-- A word selects a row of mask 0xFFFF by being its pattern (R77). -/
theorem and_FFFF (w : Word) : w &&& 0xFFFF = w := by
  have h := wordOf_and (nibble1 w) (nibble2 w) (nibble3 w) (nibble4 w) 0xF 0xF 0xF 0xF
  rw [wordOf_nibbles, nibble_and_F, nibble_and_F, nibble_and_F, nibble_and_F, wordOf_nibbles] at h
  rw [show (0xFFFF : Word) = wordOf 0xF 0xF 0xF 0xF by decide, h]

/-- A word that selects a row of format FA decodes to that row's instruction of its address field (R74, R77). -/
theorem decode_FA {w : Word} {p : Nibble} {f : Addr → Instr}
    (hf : ∀ a b c, decodeNibbles p a b c = some (f (addrOf a b c))) (h : w &&& 0xF000 = wordOf p 0 0 0) :
    decode w = some (f (w.extractLsb' 0 12)) := by
  rw [and_F000] at h
  rw [decode, h, hf, addrOf_word]

/-- The same for format FXB: its register and byte fields. -/
theorem decode_FXB {w : Word} {p : Nibble} {f : Nibble → Byte → Instr}
    (hf : ∀ a b c, decodeNibbles p a b c = some (f a (byteOf b c))) (h : w &&& 0xF000 = wordOf p 0 0 0) :
    decode w = some (f (w.extractLsb' 8 4) (w.extractLsb' 0 8)) := by
  rw [and_F000] at h
  rw [decode, h, hf, byteOf_word]
  rfl

/-- The same for format FXY: its two register fields. -/
theorem decode_FXY {w : Word} {p q : Nibble} {f : Nibble → Nibble → Instr}
    (hf : ∀ a b, decodeNibbles p a b q = some (f a b)) (h : w &&& 0xF00F = wordOf p 0 0 q) :
    decode w = some (f (w.extractLsb' 8 4) (w.extractLsb' 4 4)) := by
  rw [and_F00F] at h
  rw [decode, h.1, h.2, hf]
  rfl

/-- The same for format FXF: its register field. -/
theorem decode_FXF {w : Word} {p q r : Nibble} {f : Nibble → Instr}
    (hf : ∀ a, decodeNibbles p a q r = some (f a)) (h : w &&& 0xF0FF = wordOf p 0 q r) :
    decode w = some (f (w.extractLsb' 8 4)) := by
  rw [and_F0FF] at h
  rw [decode, h.1, h.2.1, h.2.2, hf]
  rfl

end Sys2Proof
end

