-- ==== Sys2Proof/Laws/State.lean ====
section
/-! SUPPORT. Every field after every named update of the state, once, so that no proof unfolds a record update. -/

namespace Sys2Proof.Machine

/-! setV -/

@[simp] theorem State.setV_v (s : State) (x : Nibble) (b : Byte) : (s.setV x b).v = s.v.set x.toNat b x.isLt := rfl
@[simp] theorem State.setV_i (s : State) (x : Nibble) (b : Byte) : (s.setV x b).i = s.i := rfl
@[simp] theorem State.setV_pc (s : State) (x : Nibble) (b : Byte) : (s.setV x b).pc = s.pc := rfl
@[simp] theorem State.setV_stack (s : State) (x : Nibble) (b : Byte) : (s.setV x b).stack = s.stack := rfl
@[simp] theorem State.setV_sp (s : State) (x : Nibble) (b : Byte) : (s.setV x b).sp = s.sp := rfl
@[simp] theorem State.setV_dt (s : State) (x : Nibble) (b : Byte) : (s.setV x b).dt = s.dt := rfl
@[simp] theorem State.setV_st (s : State) (x : Nibble) (b : Byte) : (s.setV x b).st = s.st := rfl
@[simp] theorem State.setV_keys (s : State) (x : Nibble) (b : Byte) : (s.setV x b).keys = s.keys := rfl
@[simp] theorem State.setV_fb (s : State) (x : Nibble) (b : Byte) : (s.setV x b).fb = s.fb := rfl
@[simp] theorem State.setV_mem (s : State) (x : Nibble) (b : Byte) : (s.setV x b).mem = s.mem := rfl
@[simp] theorem State.setV_fault (s : State) (x : Nibble) (b : Byte) : (s.setV x b).fault = s.fault := rfl
@[simp] theorem State.setV_params (s : State) (x : Nibble) (b : Byte) : (s.setV x b).params = s.params := rfl
@[simp] theorem State.setV_draws (s : State) (x : Nibble) (b : Byte) : (s.setV x b).draws = s.draws := rfl

/-! setI -/

@[simp] theorem State.setI_v (s : State) (a : Word) : (s.setI a).v = s.v := rfl
@[simp] theorem State.setI_i (s : State) (a : Word) : (s.setI a).i = a := rfl
@[simp] theorem State.setI_pc (s : State) (a : Word) : (s.setI a).pc = s.pc := rfl
@[simp] theorem State.setI_stack (s : State) (a : Word) : (s.setI a).stack = s.stack := rfl
@[simp] theorem State.setI_sp (s : State) (a : Word) : (s.setI a).sp = s.sp := rfl
@[simp] theorem State.setI_dt (s : State) (a : Word) : (s.setI a).dt = s.dt := rfl
@[simp] theorem State.setI_st (s : State) (a : Word) : (s.setI a).st = s.st := rfl
@[simp] theorem State.setI_keys (s : State) (a : Word) : (s.setI a).keys = s.keys := rfl
@[simp] theorem State.setI_fb (s : State) (a : Word) : (s.setI a).fb = s.fb := rfl
@[simp] theorem State.setI_mem (s : State) (a : Word) : (s.setI a).mem = s.mem := rfl
@[simp] theorem State.setI_fault (s : State) (a : Word) : (s.setI a).fault = s.fault := rfl
@[simp] theorem State.setI_params (s : State) (a : Word) : (s.setI a).params = s.params := rfl
@[simp] theorem State.setI_draws (s : State) (a : Word) : (s.setI a).draws = s.draws := rfl

/-! setPc -/

@[simp] theorem State.setPc_v (s : State) (a : Word) : (s.setPc a).v = s.v := rfl
@[simp] theorem State.setPc_i (s : State) (a : Word) : (s.setPc a).i = s.i := rfl
@[simp] theorem State.setPc_pc (s : State) (a : Word) : (s.setPc a).pc = a := rfl
@[simp] theorem State.setPc_stack (s : State) (a : Word) : (s.setPc a).stack = s.stack := rfl
@[simp] theorem State.setPc_sp (s : State) (a : Word) : (s.setPc a).sp = s.sp := rfl
@[simp] theorem State.setPc_dt (s : State) (a : Word) : (s.setPc a).dt = s.dt := rfl
@[simp] theorem State.setPc_st (s : State) (a : Word) : (s.setPc a).st = s.st := rfl
@[simp] theorem State.setPc_keys (s : State) (a : Word) : (s.setPc a).keys = s.keys := rfl
@[simp] theorem State.setPc_fb (s : State) (a : Word) : (s.setPc a).fb = s.fb := rfl
@[simp] theorem State.setPc_mem (s : State) (a : Word) : (s.setPc a).mem = s.mem := rfl
@[simp] theorem State.setPc_fault (s : State) (a : Word) : (s.setPc a).fault = s.fault := rfl
@[simp] theorem State.setPc_params (s : State) (a : Word) : (s.setPc a).params = s.params := rfl
@[simp] theorem State.setPc_draws (s : State) (a : Word) : (s.setPc a).draws = s.draws := rfl

/-! setDT -/

@[simp] theorem State.setDT_v (s : State) (b : Byte) : (s.setDT b).v = s.v := rfl
@[simp] theorem State.setDT_i (s : State) (b : Byte) : (s.setDT b).i = s.i := rfl
@[simp] theorem State.setDT_pc (s : State) (b : Byte) : (s.setDT b).pc = s.pc := rfl
@[simp] theorem State.setDT_stack (s : State) (b : Byte) : (s.setDT b).stack = s.stack := rfl
@[simp] theorem State.setDT_sp (s : State) (b : Byte) : (s.setDT b).sp = s.sp := rfl
@[simp] theorem State.setDT_dt (s : State) (b : Byte) : (s.setDT b).dt = b := rfl
@[simp] theorem State.setDT_st (s : State) (b : Byte) : (s.setDT b).st = s.st := rfl
@[simp] theorem State.setDT_keys (s : State) (b : Byte) : (s.setDT b).keys = s.keys := rfl
@[simp] theorem State.setDT_fb (s : State) (b : Byte) : (s.setDT b).fb = s.fb := rfl
@[simp] theorem State.setDT_mem (s : State) (b : Byte) : (s.setDT b).mem = s.mem := rfl
@[simp] theorem State.setDT_fault (s : State) (b : Byte) : (s.setDT b).fault = s.fault := rfl
@[simp] theorem State.setDT_params (s : State) (b : Byte) : (s.setDT b).params = s.params := rfl
@[simp] theorem State.setDT_draws (s : State) (b : Byte) : (s.setDT b).draws = s.draws := rfl

/-! setST -/

@[simp] theorem State.setST_v (s : State) (b : Byte) : (s.setST b).v = s.v := rfl
@[simp] theorem State.setST_i (s : State) (b : Byte) : (s.setST b).i = s.i := rfl
@[simp] theorem State.setST_pc (s : State) (b : Byte) : (s.setST b).pc = s.pc := rfl
@[simp] theorem State.setST_stack (s : State) (b : Byte) : (s.setST b).stack = s.stack := rfl
@[simp] theorem State.setST_sp (s : State) (b : Byte) : (s.setST b).sp = s.sp := rfl
@[simp] theorem State.setST_dt (s : State) (b : Byte) : (s.setST b).dt = s.dt := rfl
@[simp] theorem State.setST_st (s : State) (b : Byte) : (s.setST b).st = b := rfl
@[simp] theorem State.setST_keys (s : State) (b : Byte) : (s.setST b).keys = s.keys := rfl
@[simp] theorem State.setST_fb (s : State) (b : Byte) : (s.setST b).fb = s.fb := rfl
@[simp] theorem State.setST_mem (s : State) (b : Byte) : (s.setST b).mem = s.mem := rfl
@[simp] theorem State.setST_fault (s : State) (b : Byte) : (s.setST b).fault = s.fault := rfl
@[simp] theorem State.setST_params (s : State) (b : Byte) : (s.setST b).params = s.params := rfl
@[simp] theorem State.setST_draws (s : State) (b : Byte) : (s.setST b).draws = s.draws := rfl

/-! setFb -/

@[simp] theorem State.setFb_v (s : State) (f : Framebuffer) : (s.setFb f).v = s.v := rfl
@[simp] theorem State.setFb_i (s : State) (f : Framebuffer) : (s.setFb f).i = s.i := rfl
@[simp] theorem State.setFb_pc (s : State) (f : Framebuffer) : (s.setFb f).pc = s.pc := rfl
@[simp] theorem State.setFb_stack (s : State) (f : Framebuffer) : (s.setFb f).stack = s.stack := rfl
@[simp] theorem State.setFb_sp (s : State) (f : Framebuffer) : (s.setFb f).sp = s.sp := rfl
@[simp] theorem State.setFb_dt (s : State) (f : Framebuffer) : (s.setFb f).dt = s.dt := rfl
@[simp] theorem State.setFb_st (s : State) (f : Framebuffer) : (s.setFb f).st = s.st := rfl
@[simp] theorem State.setFb_keys (s : State) (f : Framebuffer) : (s.setFb f).keys = s.keys := rfl
@[simp] theorem State.setFb_fb (s : State) (f : Framebuffer) : (s.setFb f).fb = f := rfl
@[simp] theorem State.setFb_mem (s : State) (f : Framebuffer) : (s.setFb f).mem = s.mem := rfl
@[simp] theorem State.setFb_fault (s : State) (f : Framebuffer) : (s.setFb f).fault = s.fault := rfl
@[simp] theorem State.setFb_params (s : State) (f : Framebuffer) : (s.setFb f).params = s.params := rfl
@[simp] theorem State.setFb_draws (s : State) (f : Framebuffer) : (s.setFb f).draws = s.draws := rfl

/-! setKey -/

@[simp] theorem State.setKey_v (s : State) (k : Nibble) (p : Bool) : (s.setKey k p).v = s.v := rfl
@[simp] theorem State.setKey_i (s : State) (k : Nibble) (p : Bool) : (s.setKey k p).i = s.i := rfl
@[simp] theorem State.setKey_pc (s : State) (k : Nibble) (p : Bool) : (s.setKey k p).pc = s.pc := rfl
@[simp] theorem State.setKey_stack (s : State) (k : Nibble) (p : Bool) : (s.setKey k p).stack = s.stack := rfl
@[simp] theorem State.setKey_sp (s : State) (k : Nibble) (p : Bool) : (s.setKey k p).sp = s.sp := rfl
@[simp] theorem State.setKey_dt (s : State) (k : Nibble) (p : Bool) : (s.setKey k p).dt = s.dt := rfl
@[simp] theorem State.setKey_st (s : State) (k : Nibble) (p : Bool) : (s.setKey k p).st = s.st := rfl
@[simp] theorem State.setKey_keys (s : State) (k : Nibble) (p : Bool) : (s.setKey k p).keys = s.keys.set k.toNat p k.isLt := rfl
@[simp] theorem State.setKey_fb (s : State) (k : Nibble) (p : Bool) : (s.setKey k p).fb = s.fb := rfl
@[simp] theorem State.setKey_mem (s : State) (k : Nibble) (p : Bool) : (s.setKey k p).mem = s.mem := rfl
@[simp] theorem State.setKey_fault (s : State) (k : Nibble) (p : Bool) : (s.setKey k p).fault = s.fault := rfl
@[simp] theorem State.setKey_params (s : State) (k : Nibble) (p : Bool) : (s.setKey k p).params = s.params := rfl
@[simp] theorem State.setKey_draws (s : State) (k : Nibble) (p : Bool) : (s.setKey k p).draws = s.draws := rfl

/-! advanceDraws -/

@[simp] theorem State.advanceDraws_v (s : State) : (s.advanceDraws).v = s.v := rfl
@[simp] theorem State.advanceDraws_i (s : State) : (s.advanceDraws).i = s.i := rfl
@[simp] theorem State.advanceDraws_pc (s : State) : (s.advanceDraws).pc = s.pc := rfl
@[simp] theorem State.advanceDraws_stack (s : State) : (s.advanceDraws).stack = s.stack := rfl
@[simp] theorem State.advanceDraws_sp (s : State) : (s.advanceDraws).sp = s.sp := rfl
@[simp] theorem State.advanceDraws_dt (s : State) : (s.advanceDraws).dt = s.dt := rfl
@[simp] theorem State.advanceDraws_st (s : State) : (s.advanceDraws).st = s.st := rfl
@[simp] theorem State.advanceDraws_keys (s : State) : (s.advanceDraws).keys = s.keys := rfl
@[simp] theorem State.advanceDraws_fb (s : State) : (s.advanceDraws).fb = s.fb := rfl
@[simp] theorem State.advanceDraws_mem (s : State) : (s.advanceDraws).mem = s.mem := rfl
@[simp] theorem State.advanceDraws_fault (s : State) : (s.advanceDraws).fault = s.fault := rfl
@[simp] theorem State.advanceDraws_params (s : State) : (s.advanceDraws).params = s.params := rfl
@[simp] theorem State.advanceDraws_draws (s : State) : (s.advanceDraws).draws = s.draws + 1 := rfl

/-! push -/

@[simp] theorem State.push_v (s : State) (r : Word) (h : s.sp.val < 16) : (s.push r h).v = s.v := rfl
@[simp] theorem State.push_i (s : State) (r : Word) (h : s.sp.val < 16) : (s.push r h).i = s.i := rfl
@[simp] theorem State.push_pc (s : State) (r : Word) (h : s.sp.val < 16) : (s.push r h).pc = s.pc := rfl
@[simp] theorem State.push_stack (s : State) (r : Word) (h : s.sp.val < 16) : (s.push r h).stack = s.stack.set s.sp.val r h := rfl
@[simp] theorem State.push_sp (s : State) (r : Word) (h : s.sp.val < 16) : (s.push r h).sp = ⟨s.sp.val + 1, by omega⟩ := rfl
@[simp] theorem State.push_dt (s : State) (r : Word) (h : s.sp.val < 16) : (s.push r h).dt = s.dt := rfl
@[simp] theorem State.push_st (s : State) (r : Word) (h : s.sp.val < 16) : (s.push r h).st = s.st := rfl
@[simp] theorem State.push_keys (s : State) (r : Word) (h : s.sp.val < 16) : (s.push r h).keys = s.keys := rfl
@[simp] theorem State.push_fb (s : State) (r : Word) (h : s.sp.val < 16) : (s.push r h).fb = s.fb := rfl
@[simp] theorem State.push_mem (s : State) (r : Word) (h : s.sp.val < 16) : (s.push r h).mem = s.mem := rfl
@[simp] theorem State.push_fault (s : State) (r : Word) (h : s.sp.val < 16) : (s.push r h).fault = s.fault := rfl
@[simp] theorem State.push_params (s : State) (r : Word) (h : s.sp.val < 16) : (s.push r h).params = s.params := rfl
@[simp] theorem State.push_draws (s : State) (r : Word) (h : s.sp.val < 16) : (s.push r h).draws = s.draws := rfl

/-! popPc -/

@[simp] theorem State.popPc_v (s : State) (h : 0 < s.sp.val) : (s.popPc h).v = s.v := rfl
@[simp] theorem State.popPc_i (s : State) (h : 0 < s.sp.val) : (s.popPc h).i = s.i := rfl
@[simp] theorem State.popPc_pc (s : State) (h : 0 < s.sp.val) : (s.popPc h).pc = s.stack[s.sp.val - 1]'(by omega) := rfl
@[simp] theorem State.popPc_stack (s : State) (h : 0 < s.sp.val) : (s.popPc h).stack = s.stack := rfl
@[simp] theorem State.popPc_sp (s : State) (h : 0 < s.sp.val) : (s.popPc h).sp = ⟨s.sp.val - 1, by omega⟩ := rfl
@[simp] theorem State.popPc_dt (s : State) (h : 0 < s.sp.val) : (s.popPc h).dt = s.dt := rfl
@[simp] theorem State.popPc_st (s : State) (h : 0 < s.sp.val) : (s.popPc h).st = s.st := rfl
@[simp] theorem State.popPc_keys (s : State) (h : 0 < s.sp.val) : (s.popPc h).keys = s.keys := rfl
@[simp] theorem State.popPc_fb (s : State) (h : 0 < s.sp.val) : (s.popPc h).fb = s.fb := rfl
@[simp] theorem State.popPc_mem (s : State) (h : 0 < s.sp.val) : (s.popPc h).mem = s.mem := rfl
@[simp] theorem State.popPc_fault (s : State) (h : 0 < s.sp.val) : (s.popPc h).fault = s.fault := rfl
@[simp] theorem State.popPc_params (s : State) (h : 0 < s.sp.val) : (s.popPc h).params = s.params := rfl
@[simp] theorem State.popPc_draws (s : State) (h : 0 < s.sp.val) : (s.popPc h).draws = s.draws := rfl

/-! writeByte -/

@[simp] theorem State.writeByte_v (s : State) (a : Nat) (b : Byte) : (s.writeByte a b).v = s.v := rfl
@[simp] theorem State.writeByte_i (s : State) (a : Nat) (b : Byte) : (s.writeByte a b).i = s.i := rfl
@[simp] theorem State.writeByte_pc (s : State) (a : Nat) (b : Byte) : (s.writeByte a b).pc = s.pc := rfl
@[simp] theorem State.writeByte_stack (s : State) (a : Nat) (b : Byte) : (s.writeByte a b).stack = s.stack := rfl
@[simp] theorem State.writeByte_sp (s : State) (a : Nat) (b : Byte) : (s.writeByte a b).sp = s.sp := rfl
@[simp] theorem State.writeByte_dt (s : State) (a : Nat) (b : Byte) : (s.writeByte a b).dt = s.dt := rfl
@[simp] theorem State.writeByte_st (s : State) (a : Nat) (b : Byte) : (s.writeByte a b).st = s.st := rfl
@[simp] theorem State.writeByte_keys (s : State) (a : Nat) (b : Byte) : (s.writeByte a b).keys = s.keys := rfl
@[simp] theorem State.writeByte_fb (s : State) (a : Nat) (b : Byte) : (s.writeByte a b).fb = s.fb := rfl
@[simp] theorem State.writeByte_mem (s : State) (a : Nat) (b : Byte) : (s.writeByte a b).mem = memWrite s.params.initialByte s.mem a b := rfl
@[simp] theorem State.writeByte_fault (s : State) (a : Nat) (b : Byte) : (s.writeByte a b).fault = s.fault := rfl
@[simp] theorem State.writeByte_params (s : State) (a : Nat) (b : Byte) : (s.writeByte a b).params = s.params := rfl
@[simp] theorem State.writeByte_draws (s : State) (a : Nat) (b : Byte) : (s.writeByte a b).draws = s.draws := rfl

/-! takeFault -/

@[simp] theorem takeFault_v (f : Fault) (s : State) : (takeFault f s).v = s.v := rfl
@[simp] theorem takeFault_i (f : Fault) (s : State) : (takeFault f s).i = s.i := rfl
@[simp] theorem takeFault_pc (f : Fault) (s : State) : (takeFault f s).pc = s.pc := rfl
@[simp] theorem takeFault_stack (f : Fault) (s : State) : (takeFault f s).stack = s.stack := rfl
@[simp] theorem takeFault_sp (f : Fault) (s : State) : (takeFault f s).sp = s.sp := rfl
@[simp] theorem takeFault_dt (f : Fault) (s : State) : (takeFault f s).dt = s.dt := rfl
@[simp] theorem takeFault_st (f : Fault) (s : State) : (takeFault f s).st = s.st := rfl
@[simp] theorem takeFault_keys (f : Fault) (s : State) : (takeFault f s).keys = s.keys := rfl
@[simp] theorem takeFault_fb (f : Fault) (s : State) : (takeFault f s).fb = s.fb := rfl
@[simp] theorem takeFault_mem (f : Fault) (s : State) : (takeFault f s).mem = s.mem := rfl
@[simp] theorem takeFault_fault (f : Fault) (s : State) : (takeFault f s).fault = some f := rfl
@[simp] theorem takeFault_params (f : Fault) (s : State) : (takeFault f s).params = s.params := rfl
@[simp] theorem takeFault_draws (f : Fault) (s : State) : (takeFault f s).draws = s.draws := rfl

/-! Registers, keys and memory read through an update of another component -/

@[simp] theorem State.key_setV (s : State) (x : Nibble) (b : Byte) (z : Nibble) : (s.setV x b).key z = s.key z := rfl
@[simp] theorem State.readByte_setV (s : State) (x : Nibble) (b : Byte) (z : Nat) : (s.setV x b).readByte z = s.readByte z := rfl
@[simp] theorem State.getV_setI (s : State) (a : Word) (z : Nibble) : (s.setI a).getV z = s.getV z := rfl
@[simp] theorem State.key_setI (s : State) (a : Word) (z : Nibble) : (s.setI a).key z = s.key z := rfl
@[simp] theorem State.readByte_setI (s : State) (a : Word) (z : Nat) : (s.setI a).readByte z = s.readByte z := rfl
@[simp] theorem State.getV_setPc (s : State) (a : Word) (z : Nibble) : (s.setPc a).getV z = s.getV z := rfl
@[simp] theorem State.key_setPc (s : State) (a : Word) (z : Nibble) : (s.setPc a).key z = s.key z := rfl
@[simp] theorem State.readByte_setPc (s : State) (a : Word) (z : Nat) : (s.setPc a).readByte z = s.readByte z := rfl
@[simp] theorem State.getV_setDT (s : State) (b : Byte) (z : Nibble) : (s.setDT b).getV z = s.getV z := rfl
@[simp] theorem State.key_setDT (s : State) (b : Byte) (z : Nibble) : (s.setDT b).key z = s.key z := rfl
@[simp] theorem State.readByte_setDT (s : State) (b : Byte) (z : Nat) : (s.setDT b).readByte z = s.readByte z := rfl
@[simp] theorem State.getV_setST (s : State) (b : Byte) (z : Nibble) : (s.setST b).getV z = s.getV z := rfl
@[simp] theorem State.key_setST (s : State) (b : Byte) (z : Nibble) : (s.setST b).key z = s.key z := rfl
@[simp] theorem State.readByte_setST (s : State) (b : Byte) (z : Nat) : (s.setST b).readByte z = s.readByte z := rfl
@[simp] theorem State.getV_setFb (s : State) (f : Framebuffer) (z : Nibble) : (s.setFb f).getV z = s.getV z := rfl
@[simp] theorem State.key_setFb (s : State) (f : Framebuffer) (z : Nibble) : (s.setFb f).key z = s.key z := rfl
@[simp] theorem State.readByte_setFb (s : State) (f : Framebuffer) (z : Nat) : (s.setFb f).readByte z = s.readByte z := rfl
@[simp] theorem State.getV_setKey (s : State) (k : Nibble) (p : Bool) (z : Nibble) : (s.setKey k p).getV z = s.getV z := rfl
@[simp] theorem State.readByte_setKey (s : State) (k : Nibble) (p : Bool) (z : Nat) : (s.setKey k p).readByte z = s.readByte z := rfl
@[simp] theorem State.getV_advanceDraws (s : State) (z : Nibble) : (s.advanceDraws).getV z = s.getV z := rfl
@[simp] theorem State.key_advanceDraws (s : State) (z : Nibble) : (s.advanceDraws).key z = s.key z := rfl
@[simp] theorem State.readByte_advanceDraws (s : State) (z : Nat) : (s.advanceDraws).readByte z = s.readByte z := rfl
@[simp] theorem State.getV_push (s : State) (r : Word) (h : s.sp.val < 16) (z : Nibble) : (s.push r h).getV z = s.getV z := rfl
@[simp] theorem State.key_push (s : State) (r : Word) (h : s.sp.val < 16) (z : Nibble) : (s.push r h).key z = s.key z := rfl
@[simp] theorem State.readByte_push (s : State) (r : Word) (h : s.sp.val < 16) (z : Nat) : (s.push r h).readByte z = s.readByte z := rfl
@[simp] theorem State.getV_popPc (s : State) (h : 0 < s.sp.val) (z : Nibble) : (s.popPc h).getV z = s.getV z := rfl
@[simp] theorem State.key_popPc (s : State) (h : 0 < s.sp.val) (z : Nibble) : (s.popPc h).key z = s.key z := rfl
@[simp] theorem State.readByte_popPc (s : State) (h : 0 < s.sp.val) (z : Nat) : (s.popPc h).readByte z = s.readByte z := rfl
@[simp] theorem State.getV_writeByte (s : State) (a : Nat) (b : Byte) (z : Nibble) : (s.writeByte a b).getV z = s.getV z := rfl
@[simp] theorem State.key_writeByte (s : State) (a : Nat) (b : Byte) (z : Nibble) : (s.writeByte a b).key z = s.key z := rfl
@[simp] theorem takeFault_getV (f : Fault) (s : State) (z : Nibble) : (takeFault f s).getV z = s.getV z := rfl
@[simp] theorem takeFault_key (f : Fault) (s : State) (z : Nibble) : (takeFault f s).key z = s.key z := rfl
@[simp] theorem takeFault_readByte (f : Fault) (s : State) (z : Nat) : (takeFault f s).readByte z = s.readByte z := rfl

end Sys2Proof.Machine
end

