-- ==== Sys2Proof/Laws/Memory.lean ====
section
/-! SUPPORT. The laws of memory: what a byte reads as after a write, and that every memory operation keeps the canonical form. -/

namespace Sys2Proof.Machine

variable (u : Nat → Byte)

theorem memRead_erase (m : List Host.Cell) (a z : Nat) :
    memRead u (memErase a m) z = if z = a then u z else memRead u m z := by
  induction m with
  | nil => simp [memErase, memRead]
  | cons c m ih =>
    unfold memErase at ih ⊢
    by_cases hc : c.1 = a
    · by_cases hz : z = a
      · simpa [List.filter_cons, hc, hz] using ih
      · have hcz : c.1 ≠ z := fun e => hz (e.symm.trans hc)
        have : a ≠ z := fun e => hz e.symm
        simpa [List.filter_cons, hc, hz, memRead, this] using ih
    · by_cases hcz : c.1 = z
      · have hz : z ≠ a := fun e => hc (hcz.trans e)
        simp [hz, memRead, hcz]
      · simpa [List.filter_cons, hc, memRead, hcz] using ih

theorem memRead_insert (m : List Host.Cell) (a z : Nat) (b : Byte) (ha : ∀ c ∈ m, c.1 ≠ a) :
    memRead u (memInsert a b m) z = if z = a then b else memRead u m z := by
  induction m with
  | nil => simp [memInsert, memRead, eq_comm]
  | cons c m ih =>
    have hc := ha c (by simp)
    have ih := ih fun d hd => ha d (by simp [hd])
    unfold memInsert
    split
    · simp [memRead, eq_comm]
    · by_cases hcz : c.1 = z
      · have hz : z ≠ a := fun e => hc (hcz.trans e)
        simp [memRead, hcz, hz]
      · simpa [memRead, hcz] using ih

theorem memErase_ne (m : List Host.Cell) (a : Nat) : ∀ c ∈ memErase a m, c.1 ≠ a := by
  intro c hc
  simpa using (List.mem_filter.1 hc).2

/-- A read after a write, of the same place or of another one, whatever the list. -/
theorem memRead_write (m : List Host.Cell) (a z : Nat) (b : Byte) :
    memRead u (memWrite u m a b) z = if z = a then b else memRead u m z := by
  unfold memWrite
  by_cases h : b = u a
  · by_cases hz : z = a
    · simp [h, memRead_erase, hz]
    · simp [h, memRead_erase, hz]
  · rw [if_neg h, memRead_insert u _ _ _ _ (memErase_ne m a), memRead_erase]
    by_cases hz : z = a <;> simp [hz]

theorem mem_memInsert {m : List Host.Cell} {a : Nat} {b : Byte} {c : Host.Cell}
    (h : c ∈ memInsert a b m) : c = (a, b) ∨ c ∈ m := by
  induction m with
  | nil => simpa [memInsert] using h
  | cons d m ih =>
    unfold memInsert at h
    split at h
    · simpa using h
    · rcases List.mem_cons.1 h with rfl | h
      · simp
      · rcases ih h with h | h <;> simp [h]

theorem memInsert_rising {m : List Host.Cell} {a : Nat} {b : Byte}
    (hm : m.Pairwise (fun c d => c.1 < d.1)) (ha : ∀ c ∈ m, c.1 ≠ a) :
    (memInsert a b m).Pairwise (fun c d => c.1 < d.1) := by
  induction m with
  | nil => simp [memInsert]
  | cons d m ih =>
    have hd := ha d (by simp)
    rw [List.pairwise_cons] at hm
    unfold memInsert
    split
    · next hlt =>
      rw [List.pairwise_cons]
      refine ⟨fun c hc => ?_, List.pairwise_cons.2 hm⟩
      rcases List.mem_cons.1 hc with rfl | hc
      · exact hlt
      · exact Nat.lt_trans hlt (hm.1 c hc)
    · next hle =>
      rw [List.pairwise_cons]
      refine ⟨fun c hc => ?_, ih hm.2 fun c hc => ha c (by simp [hc])⟩
      rcases mem_memInsert hc with rfl | hc
      · simp only; omega
      · exact hm.1 c hc

/-- Every write inside the space keeps the canonical form. -/
theorem memWrite_wf {m : List Host.Cell} (hm : Memory.wf u m) {a : Nat} (ha : a < Config.memSize) (b : Byte) :
    Memory.wf u (memWrite u m a b) := by
  have he : Memory.wf u (memErase a m) :=
    ⟨hm.1.filter _, fun c hc => hm.2 c (List.mem_filter.1 hc).1⟩
  unfold memWrite
  split
  · exact he
  · next hb =>
    refine ⟨memInsert_rising he.1 (memErase_ne m a), fun c hc => ?_⟩
    rcases mem_memInsert hc with rfl | hc
    · exact ⟨ha, hb⟩
    · exact he.2 c hc

/-- A byte after a write of a byte. -/
theorem State.readByte_writeByte (s : State) (a z : Nat) (b : Byte) :
    (s.writeByte a b).readByte z = if z = a then b else s.readByte z :=
  memRead_write _ _ _ _ _

theorem State.writeByte_memWf {s : State} (h : s.MemWf) {a : Nat} (ha : a < Config.memSize) (b : Byte) :
    (s.writeByte a b).MemWf := memWrite_wf _ h ha b

/-- Writing bytes changes memory only. -/
theorem State.writeBytes_eq (bs : List Byte) : ∀ (s : State) (a : Nat),
    s.writeBytes a bs = { s with mem := (s.writeBytes a bs).mem } := by
  induction bs with
  | nil => intro s a; rfl
  | cons b bs ih =>
    intro s a
    show (s.writeByte a b).writeBytes (a + 1) bs = _
    rw [ih]
    rfl

/-- Every byte after a block of bytes is written: the block's inside its range, the old one outside. -/
theorem State.readByte_writeBytes (bs : List Byte) : ∀ (s : State) (a z : Nat),
    (s.writeBytes a bs).readByte z = if h : a ≤ z ∧ z - a < bs.length then bs[z - a] else s.readByte z := by
  induction bs with
  | nil => intro s a z; simp [State.writeBytes]
  | cons b bs ih =>
    intro s a z
    show ((s.writeByte a b).writeBytes (a + 1) bs).readByte z = _
    rw [ih, State.readByte_writeByte]
    by_cases hz : z = a
    · subst hz; simp
    · by_cases h : a + 1 ≤ z ∧ z - (a + 1) < bs.length
      · have h2 : a ≤ z ∧ z - a < (b :: bs).length := by simp; omega
        have e : z - a = (z - (a + 1)) + 1 := by omega
        rw [dif_pos h, dif_pos h2]
        simp [e]
      · have h2 : ¬ (a ≤ z ∧ z - a < (b :: bs).length) := by simp; omega
        rw [dif_neg h, dif_neg h2, if_neg hz]

/-- A block of bytes written inside the space keeps the canonical form. -/
theorem State.writeBytes_memWf (bs : List Byte) : ∀ {s : State} {a : Nat}, s.MemWf →
    a + bs.length ≤ Config.memSize → (s.writeBytes a bs).MemWf := by
  induction bs with
  | nil => intro s a h _; exact h
  | cons b bs ih =>
    intro s a h hl
    simp only [List.length_cons] at hl
    exact ih (State.writeByte_memWf h (by omega) b) (by omega)

/-- The canonical form holds at reset, for any parameters. -/
theorem State.resetWith_memWf (p : Params) (n : Nat) : (State.resetWith p n).MemWf :=
  ⟨List.Pairwise.nil, by intro c hc; cases hc⟩

end Sys2Proof.Machine
end

