-- ==== Sys2Proof/Laws/Registers.lean ====
section
/-! SUPPORT. What a register, a key and the flag read as after a write. -/

namespace Sys2Proof.Machine

theorem State.getV_setV (s : State) (x z : Nibble) (b : Byte) :
    (s.setV x b).getV z = if z = x then b else s.getV z := by
  unfold State.getV State.setV
  by_cases h : z = x
  · subst h; simp
  · have h' : x.toNat ≠ z.toNat := fun e => h (BitVec.eq_of_toNat_eq e.symm)
    simp [h, h']

@[simp] theorem State.getV_setV_same (s : State) (x : Nibble) (b : Byte) : (s.setV x b).getV x = b := by
  simp [State.getV_setV]

theorem State.getV_setV_ne (s : State) {x z : Nibble} (b : Byte) (h : z ≠ x) : (s.setV x b).getV z = s.getV z := by
  simp [State.getV_setV, h]

theorem State.key_setKey (s : State) (k z : Nibble) (p : Bool) :
    (s.setKey k p).key z = if z = k then p else s.key z := by
  unfold State.key State.setKey
  by_cases h : z = k
  · subst h; simp
  · have h' : k.toNat ≠ z.toNat := fun e => h (BitVec.eq_of_toNat_eq e.symm)
    simp [h, h']

theorem State.getV_setFlag (s : State) (z : Nibble) (c : Bool) :
    (s.setFlag c).getV z = if z = vf then flagByte c else s.getV z := State.getV_setV s vf z _

/-- What every register reads as after a result and its flag are written: the flag wins in VF (R138). -/
theorem State.getV_writeResultFlag (s : State) (x z : Nibble) (r : Byte) (c : Bool) :
    (writeResultFlag x r c s).getV z = if z = vf then flagByte c else if z = x then r else s.getV z := by
  simp [writeResultFlag, State.getV_setFlag, State.getV_setV]

/-- What every register reads as after a logic result is written (R134). -/
theorem State.getV_writeLogic (s : State) (x z : Nibble) (r : Byte) :
    (writeLogic x r s).getV z =
      if s.params.logicVfReset = true ∧ z = vf then 0 else if z = x then r else s.getV z := by
  unfold writeLogic
  by_cases h : s.params.logicVfReset
  · simp [h, State.getV_writeResultFlag, flagByte]
  · simp [h, State.getV_setV]

/-- Writing a result and its flag changes the registers only. -/
theorem writeResultFlag_only_v (s : State) (x : Nibble) (r : Byte) (c : Bool) :
    writeResultFlag x r c s = { s with v := (writeResultFlag x r c s).v } := rfl

/-- Writing a logic result changes the registers only. -/
theorem writeLogic_only_v (s : State) (x : Nibble) (r : Byte) :
    writeLogic x r s = { s with v := (writeLogic x r s).v } := by
  unfold writeLogic
  split <;> rfl

/-- Two states that differ in the registers only are equal when every register reads the same. -/
theorem State.ext_getV {s t : State} (h : t = { s with v := t.v }) (hv : ∀ z, t.getV z = s.getV z) : t = s := by
  have e : t.v = s.v := by
    refine Vector.ext fun k hk => ?_
    have := hv (BitVec.ofNat 4 k)
    have hk' : (BitVec.ofNat 4 k).toNat = k := by simp; omega
    simpa [State.getV, hk'] using this
  rw [h, e]

/-- Every nibble is in the list of all of them. -/
theorem mem_allNibbles (k : Nibble) : k ∈ allNibbles := by
  unfold allNibbles
  exact List.mem_map.2 ⟨k.toNat, List.mem_range.2 k.isLt, by simp⟩

/-- Skipping changes nothing but PC (R103). -/
theorem State.skipIf_eq (s : State) (c : Bool) : s.skipIf c = s.setPc (if c then s.pc + 2 else s.pc) := by
  cases c <;> rfl

/-- `firstKey` answers none exactly when no key is pressed (R222). -/
theorem State.firstKey_none (s : State) : s.firstKey = none ↔ ∀ k, s.key k = false := by
  unfold State.firstKey
  rw [List.find?_eq_none]
  constructor
  · intro h k; simpa using h k (mem_allNibbles k)
  · intro h k _; simp [h k]

/-- `firstKey` answers the lowest pressed key (R222). -/
theorem State.firstKey_some {s : State} {k : Nibble} (h : s.firstKey = some k) :
    s.key k = true ∧ ∀ j : Nibble, j.toNat < k.toNat → s.key j = false := by
  unfold State.firstKey at h
  refine ⟨by simpa using List.find?_some h, ?_⟩
  rw [List.find?_eq_some_iff_append] at h
  obtain ⟨-, as, bs, heq, has⟩ := h
  intro j hj
  have hs : allNibbles.Pairwise (fun a b => a.toNat < b.toNat) := by decide
  have hjm := mem_allNibbles j
  rw [heq] at hs hjm
  rcases List.mem_append.1 hjm with h1 | h1
  · simpa using has j h1
  · rw [List.pairwise_append] at hs
    rcases List.mem_cons.1 h1 with rfl | h2
    · omega
    · have := (List.pairwise_cons.1 hs.2.1).1 j h2
      omega

end Sys2Proof.Machine
end

