-- ==== Sys2Proof/Laws/Operations.lean ====
section
/-! SUPPORT. One lemma per shared operation: everything it can answer. -/

namespace Sys2Proof.Machine

/-- Fault entry from within an instruction (R246): a next state that differs in PC and the latch only. -/
theorem raiseFault_eq (f : Fault) (s : State) :
    raiseFault f s = .next { s with pc := s.pc - 2, fault := some f } := rfl

/-- On a state whose PC a fetch has just advanced, fault entry gives back the state before the step, latched (R246). -/
theorem raiseFault_after_fetch (f : Fault) (s : State) :
    raiseFault f (s.setPc (s.pc + 2)) = .next (takeFault f s) := by
  simp [raiseFault, State.fetchPc, takeFault, State.setPc]

/-- The lowest address of a block that is outside memory: there is none exactly when the block is empty or ends inside,
and else it is the first of the block's addresses at or above 4096 (R173). -/
theorem firstOutOfBounds_eq (base n : Nat) :
    firstOutOfBounds base n = if n = 0 ∨ base + n ≤ Config.memSize then none else some (max base Config.memSize) := by
  unfold firstOutOfBounds
  split
  · next h =>
    rw [List.find?_eq_none]
    simp only [List.mem_map, List.mem_range, decide_eq_true_eq, Nat.not_le, forall_exists_index, and_imp]
    rintro a k hk rfl
    omega
  · next h =>
    rw [List.find?_eq_some_iff_getElem]
    refine ⟨by simp, max base Config.memSize - base, by simp; omega, by simp, ?_⟩
    intro j hj
    simp
    omega

/-- Everything a block access can answer (R173). -/
theorem withBlock_eq (n : Nat) (s body : State) :
    withBlock n s body =
      if n = 0 ∨ s.i.toNat + n ≤ Config.memSize then .next body
      else raiseFault (.memoryOutOfBounds (max s.i.toNat Config.memSize)) s := by
  unfold withBlock
  rw [firstOutOfBounds_eq]
  by_cases h : n = 0 ∨ s.i.toNat + n ≤ Config.memSize
  · rw [if_pos h, if_pos h]
  · rw [if_neg h, if_neg h]

/-- Everything an access to the key array can answer (R220, R244). -/
theorem withKey_eq (x : Nibble) (s : State) (body : Nibble → State) :
    withKey x s body =
      if 15 < (s.getV x).toNat then raiseFault (.keyIndexOutOfRange (s.getV x)) s
      else .next (body ((s.getV x).setWidth 4)) := rfl

/-- The bytes of a block, by position. -/
theorem State.readBytes_length (s : State) (a n : Nat) : (s.readBytes a n).length = n := by
  simp [State.readBytes]

theorem State.getElem_readBytes (s : State) (a n k : Nat) (h : k < (s.readBytes a n).length) :
    (s.readBytes a n)[k] = s.readByte (a + k) := by
  simp [State.readBytes]

theorem regBlock_length (s : State) (x : Nibble) : (regBlock s x).length = x.toNat + 1 := by
  simp [regBlock, blockLen]

theorem getElem_regBlock (s : State) (x : Nibble) (k : Nat) (h : k < (regBlock s x).length) :
    (regBlock s x)[k] = s.getV (BitVec.ofNat 4 k) := by
  simp [regBlock]

/-- Loading a block of registers changes the registers only. -/
theorem loadRegBlock_only_v (bs : List Byte) : ∀ (s : State) (k : Nat),
    loadRegBlock s k bs = { s with v := (loadRegBlock s k bs).v } := by
  induction bs with
  | nil => intro s k; rfl
  | cons b bs ih =>
    intro s k
    show loadRegBlock (s.setV _ b) (k + 1) bs = _
    rw [ih]
    rfl

/-- Every register after a block of bytes is loaded from register k on (R179). -/
theorem getV_loadRegBlock (bs : List Byte) : ∀ (s : State) (k : Nat) (z : Nibble), k + bs.length ≤ 16 →
    (loadRegBlock s k bs).getV z =
      if h : k ≤ z.toNat ∧ z.toNat - k < bs.length then bs[z.toNat - k] else s.getV z := by
  induction bs with
  | nil => intro s k z _; simp [loadRegBlock]
  | cons b bs ih =>
    intro s k z hk
    simp only [List.length_cons] at hk
    show (loadRegBlock (s.setV _ b) (k + 1) bs).getV z = _
    rw [ih _ _ _ (by omega), State.getV_setV]
    by_cases hz : z.toNat = k
    · have hz' : z = BitVec.ofNat 4 k := by rw [← hz]; simp
      subst hz
      simp [← hz']
    · have hz' : z ≠ BitVec.ofNat 4 k := by
        intro e; apply hz; rw [e]; simp; omega
      by_cases h : k + 1 ≤ z.toNat ∧ z.toNat - (k + 1) < bs.length
      · have h2 : k ≤ z.toNat ∧ z.toNat - k < (b :: bs).length := by simp; omega
        have e : z.toNat - k = (z.toNat - (k + 1)) + 1 := by omega
        rw [dif_pos h, dif_pos h2]
        simp [e]
      · have h2 : ¬ (k ≤ z.toNat ∧ z.toNat - k < (b :: bs).length) := by simp; omega
        rw [dif_neg h, dif_neg h2, if_neg hz']

theorem bcdBytes_length (b : Byte) : (bcdBytes b).length = 3 := rfl

end Sys2Proof.Machine
end

