-- ==== Sys2Proof/Laws/Display.lean ====
section
/-! SUPPORT. What the rasterizer does to every cell (spec/43_display.md R202): its cells, that no two of them coincide, and the framebuffer after the flips. -/

namespace Sys2Proof.Machine

theorem getElem_flipCell (d : Framebuffer × Bool) (c k : Fin 2048) :
    (flipCell d c).1[k.val] = (d.1[k.val] ^^ decide (k = c)) := by
  unfold flipCell
  by_cases h : k = c
  · subst h; simp
  · have h' : c.val ≠ k.val := fun e => h (Fin.ext e.symm)
    simp [h, h']

/-- Flips of cells without repeats: each of them is flipped once, and the collision is that one of them was lit. -/
theorem foldl_flipCell (cells : List (Fin 2048)) : ∀ (d : Framebuffer × Bool), cells.Nodup →
    (∀ k : Fin 2048, (cells.foldl flipCell d).1[k.val] = (d.1[k.val] ^^ decide (k ∈ cells))) ∧
    (cells.foldl flipCell d).2 = (d.2 || cells.any fun c => d.1[c.val]) := by
  induction cells with
  | nil => intro d _; simp
  | cons c cells ih =>
    intro d hn
    rw [List.nodup_cons] at hn
    obtain ⟨h1, h2⟩ := ih (flipCell d c) hn.2
    constructor
    · intro k
      rw [List.foldl_cons, h1 k, getElem_flipCell]
      by_cases hk : k = c
      · subst hk; simp [hn.1]
      · simp [hk]
    · rw [List.foldl_cons, h2, List.any_cons]
      have : (cells.any fun e => (flipCell d c).1[e.val]) = cells.any fun e => d.1[e.val] := by
        rw [Bool.eq_iff_iff, List.any_eq_true, List.any_eq_true]
        refine exists_congr fun e => and_congr_right fun he => ?_
        have hne : e ≠ c := fun h => hn.1 (h ▸ he)
        rw [getElem_flipCell]
        simp [hne]
      rw [this]
      simp [flipCell, Bool.or_assoc]

/-- Everything the flips of a sprite without repeated cells can do. -/
theorem drawCells_spec (fb : Framebuffer) {cells : List (Fin 2048)} (hn : cells.Nodup) :
    (∀ k : Fin 2048, (drawCells fb cells).1[k.val] = (fb[k.val] ^^ decide (k ∈ cells))) ∧
    (drawCells fb cells).2 = cells.any fun c => fb[c.val] := by
  simpa [drawCells] using foldl_flipCell cells (fb, false) hn

theorem mem_rowCells (x0 y : Nat) (b : Byte) (k : Fin 2048) :
    k ∈ rowCells x0 y b ↔ ∃ c, c < 8 ∧ b.getLsbD (7 - c) = true ∧ k = cellAt (x0 + c) y := by
  unfold rowCells
  simp only [List.mem_map, List.mem_filter, List.mem_range]
  constructor
  · rintro ⟨c, ⟨h1, h2⟩, rfl⟩; exact ⟨c, h1, h2, rfl⟩
  · rintro ⟨c, h1, h2, rfl⟩; exact ⟨c, ⟨h1, h2⟩, rfl⟩

/-- The cells of a sprite: those of its set bits (R201, R202). -/
theorem mem_spriteCells (x0 : Nat) (rows : List Byte) : ∀ (y : Nat) (k : Fin 2048),
    k ∈ spriteCells x0 y rows ↔
      ∃ r c, ∃ h : r < rows.length, c < 8 ∧ rows[r].getLsbD (7 - c) = true ∧ k = cellAt (x0 + c) (y + r) := by
  induction rows with
  | nil => intro y k; simp [spriteCells]
  | cons b rows ih =>
    intro y k
    rw [spriteCells, List.mem_append, mem_rowCells, ih]
    constructor
    · rintro (⟨c, h1, h2, h3⟩ | ⟨r, c, hr, h1, h2, h3⟩)
      · exact ⟨0, c, by simp, h1, h2, h3⟩
      · exact ⟨r + 1, c, by simpa using hr, h1, by simpa using h2, by rw [h3]; congr 1; omega⟩
    · rintro ⟨r, c, hr, h1, h2, h3⟩
      cases r with
      | zero => exact Or.inl ⟨c, h1, by simpa using h2, h3⟩
      | succ r => exact Or.inr ⟨r, c, by simpa using hr, h1, by simpa using h2, by rw [h3]; congr 1; omega⟩

/-- Two cells of one sprite coincide only when their columns and rows do: 8 < 64 and 15 < 32 (R202). -/
theorem cellAt_inj {x0 y0 c c' r r' : Nat} (hc : c < 64) (hc' : c' < 64) (hr : r < 32) (hr' : r' < 32)
    (h : cellAt (x0 + c) (y0 + r) = cellAt (x0 + c') (y0 + r')) : c = c' ∧ r = r' := by
  have h' : (x0 + c) % 64 + 64 * ((y0 + r) % 32) = (x0 + c') % 64 + 64 * ((y0 + r') % 32) := congrArg Fin.val h
  omega

theorem rowCells_nodup (x0 y : Nat) (b : Byte) : (rowCells x0 y b).Nodup := by
  unfold rowCells
  refine (List.nodup_range.filter _).map_on ?_
  intro c hc c' hc' h
  have h1 := List.mem_range.1 (List.mem_filter.1 hc).1
  have h2 := List.mem_range.1 (List.mem_filter.1 hc').1
  exact (cellAt_inj (y0 := y) (r := 0) (r' := 0) (by omega) (by omega) (by omega) (by omega) h).1

/-- No two set bits of a sprite of at most 32 rows land on one cell (R202). -/
theorem spriteCells_nodup (x0 : Nat) (rows : List Byte) : ∀ (y : Nat), rows.length ≤ 32 →
    (spriteCells x0 y rows).Nodup := by
  induction rows with
  | nil => intro y _; simp [spriteCells]
  | cons b rows ih =>
    intro y hl
    simp only [List.length_cons] at hl
    rw [spriteCells]
    refine (rowCells_nodup x0 y b).append (ih (y + 1) (by omega)) ?_
    intro k h1 h2
    obtain ⟨c, hc, -, rfl⟩ := (mem_rowCells _ _ _ _).1 h1
    obtain ⟨r, c', hr, hc', -, h⟩ := (mem_spriteCells _ _ _ _).1 h2
    have h' : cellAt (x0 + c) (y + 0) = cellAt (x0 + c') (y + (1 + r)) := by
      rw [Nat.add_zero, h]; congr 1; omega
    have := (cellAt_inj (by omega) (by omega) (by omega) (by omega) h').2
    omega

end Sys2Proof.Machine
end

