-- ==== Sys2Proof/Laws/Step.lean ====
section
/-! SUPPORT. Everything a fetch and a cycle can do (spec/30_encoding.md R70, R71), and a word placed at PC. -/

namespace Sys2Proof.Machine

/-- The fetch (R71): a fault naming the first of the two addresses that is outside memory, or the word at PC. -/
theorem fetch_eq (s : State) : fetch s =
    if s.FetchInside then .ok s.wordAtPc
    else .error (.memoryOutOfBounds (max s.pc.toNat Config.memSize)) := by
  unfold fetch memReadChecked
  by_cases h1 : Config.memSize ≤ s.pc.toNat
  · have h2 : ¬ s.FetchInside := by simp only [State.FetchInside] at *; omega
    rw [if_pos h1, if_neg h2, Nat.max_eq_left h1]
  · rw [if_neg h1]
    by_cases h2 : Config.memSize ≤ s.pc.toNat + 1
    · have h3 : ¬ s.FetchInside := by simp only [State.FetchInside] at *; omega
      have e : max s.pc.toNat Config.memSize = s.pc.toNat + 1 := by omega
      simp only [if_pos h2, if_neg h3, e]
    · have h3 : s.FetchInside := by simp only [State.FetchInside] at *; omega
      simp only [if_neg h2, if_pos h3]
      rfl

/-- A latched machine returns its fault (R247). -/
theorem cycle_latched (run : Instr → State → Result) {s : State} {f : Fault} (h : s.fault = some f) :
    cycle run s = .fault f := by
  simp [cycle, h]

/-- A fetch outside memory (R71). -/
theorem cycle_outside (run : Instr → State → Result) {s : State} (h : s.Running) (ho : ¬ s.FetchInside) :
    cycle run s = .next (takeFault (.memoryOutOfBounds (max s.pc.toNat Config.memSize)) s) := by
  have h' : s.fault = none := h
  simp [cycle, h', fetch_eq, if_neg ho]

/-- A word that is no instruction (R78, R241). -/
theorem cycle_illegal (run : Instr → State → Result) {s : State} (h : s.Running) (hi : s.FetchInside)
    (hd : decode s.wordAtPc = none) : cycle run s = .next (takeFault (.unimplementedOpcode s.wordAtPc) s) := by
  have h' : s.fault = none := h
  simp [cycle, h', fetch_eq, if_pos hi, hd]

/-- A word that is an instruction is run on the post-fetch state (R70, R72). -/
theorem cycle_runs (run : Instr → State → Result) {s : State} {i : Instr} (h : s.Running) (hi : s.FetchInside)
    (hd : decode s.wordAtPc = some i) : cycle run s = run i (s.setPc (s.pc + 2)) := by
  have h' : s.fault = none := h
  simp [cycle, h', fetch_eq, if_pos hi, hd]

/-- Everything a cycle that answers a next state has done: the machine was running, and either a fetch or decode fault
with genuine information was taken, or an instruction ran on the post-fetch state. -/
theorem cycle_next {run : Instr → State → Result} {s t : State} (h : cycle run s = .next t) : s.Running ∧
    ((∃ f, faultGenuine f ∧ t = takeFault f s) ∨
     ∃ i, s.FetchInside ∧ decode s.wordAtPc = some i ∧ run i (s.setPc (s.pc + 2)) = .next t) := by
  cases hf : s.fault with
  | some f => rw [cycle_latched run hf] at h; cases h
  | none =>
    refine ⟨hf, ?_⟩
    by_cases hi : s.FetchInside
    · cases hd : decode s.wordAtPc with
      | none =>
        rw [cycle_illegal run hf hi hd] at h
        cases h
        exact Or.inl ⟨.unimplementedOpcode s.wordAtPc, hd, rfl⟩
      | some i =>
        rw [cycle_runs run hf hi hd] at h
        exact Or.inr ⟨i, hi, rfl, h⟩
    · rw [cycle_outside run hf hi] at h
      cases h
      exact Or.inl ⟨.memoryOutOfBounds (max s.pc.toNat Config.memSize), Nat.le_max_right _ _, rfl⟩

/-- A word placed at PC is the word the next fetch reads. -/
theorem wordAtPc_placeWord {s : State} (h : s.FetchInside) (w : Word) : (placeWord s w).wordAtPc = w := by
  have e : placeWord s w = { s.writeBytes s.pc.toNat (bytesOfWord w) with fault := none } := if_pos h
  have hp : (placeWord s w).pc = s.pc := by rw [e, State.writeBytes_eq]
  have hb (z : Nat) : (placeWord s w).readByte z = (s.writeBytes s.pc.toNat (bytesOfWord w)).readByte z := by
    rw [e]; rfl
  unfold State.wordAtPc
  rw [hp, hb, hb, State.readByte_writeBytes, State.readByte_writeBytes]
  have h0 : s.pc.toNat ≤ s.pc.toNat ∧ s.pc.toNat - s.pc.toNat < (bytesOfWord w).length := by
    simp [bytesOfWord]
  have h1 : s.pc.toNat ≤ s.pc.toNat + 1 ∧ s.pc.toNat + 1 - s.pc.toNat < (bytesOfWord w).length := by
    simp [bytesOfWord]
  rw [dif_pos h0, dif_pos h1]
  have e1 : s.pc.toNat + 1 - s.pc.toNat = 1 := by omega
  simp only [Nat.sub_self, e1]
  exact wordOfBytes_bytes w

end Sys2Proof.Machine
end

