-- ==== Sys2Proof/Laws/Exec.lean ====
section
/-! SUPPORT. What an instruction and its shared operations have done when they answered a next state: the inversion lemmas that later proofs cite in place of unfolding `exec`. -/

namespace Sys2Proof.Machine

/-- The fetch address of a state whose PC a fetch has just advanced (R10, R72). -/
@[simp] theorem State.fetchPc_after_fetch (s : State) (a : Word) : (s.setPc (a + 2#16)).fetchPc = a := by
  simp [State.fetchPc]

/-- What a block access has done: the fault of a block that ends outside memory, or its body (R173). -/
theorem withBlock_next {n : Nat} {s body t : State} (h : withBlock n s body = .next t) :
    (max s.i.toNat Config.memSize < s.i.toNat + n ∧
      t = takeFault (.memoryOutOfBounds (max s.i.toNat Config.memSize)) (s.setPc s.fetchPc)) ∨
    ((n = 0 ∨ s.i.toNat + n ≤ Config.memSize) ∧ t = body) := by
  rw [withBlock_eq] at h
  split at h
  · next hb => cases h; exact Or.inr ⟨hb, rfl⟩
  · next hb => cases h; exact Or.inl ⟨by omega, rfl⟩

/-- What a key access has done: the fault of an index above 15, or its body (R220, R244). -/
theorem withKey_next {x : Nibble} {s t : State} {body : Nibble → State} (h : withKey x s body = .next t) :
    (15 < (s.getV x).toNat ∧ t = takeFault (.keyIndexOutOfRange (s.getV x)) (s.setPc s.fetchPc)) ∨
    ((s.getV x).toNat ≤ 15 ∧ t = body ((s.getV x).setWidth 4)) := by
  rw [withKey_eq] at h
  split at h
  · next hx => cases h; exact Or.inl ⟨hx, rfl⟩
  · next hx => cases h; exact Or.inr ⟨by omega, rfl⟩

/-- The instructions that access a block through I, and how many bytes it has (R61, R173). -/
def BlockOf (i : Instr) (n : Nat) : Prop :=
  (∃ x, i = .ldB x ∧ n = 3) ∨ (∃ x, i = .storeRegs x ∧ n = x.toNat + 1) ∨ (∃ x, i = .loadRegs x ∧ n = x.toNat + 1) ∨
  ∃ x y m, i = .drw x y m ∧ n = m.toNat

/-- An instruction that raises this fault on this post-fetch state, with the information R240 says it records. -/
def Raises (i : Instr) (s : State) (f : Fault) : Prop :=
  (∃ nnn, i = .call nnn ∧ s.sp.val = 16 ∧ f = .stackOverflow s.fetchPc) ∨
  (i = .ret ∧ s.sp.val = 0 ∧ f = .stackUnderflow s.fetchPc) ∨
  (∃ x, (i = .skp x ∨ i = .sknp x) ∧ 15 < (s.getV x).toNat ∧ f = .keyIndexOutOfRange (s.getV x)) ∨
  (∃ n, BlockOf i n ∧ max s.i.toNat Config.memSize < s.i.toNat + n ∧
    f = .memoryOutOfBounds (max s.i.toNat Config.memSize))

/-- The fault an instruction raises carries genuine information (R240). -/
theorem Raises.genuine {i : Instr} {s : State} {f : Fault} (h : Raises i s f) : faultGenuine f := by
  obtain ⟨_, _, _, rfl⟩ | ⟨_, _, rfl⟩ | ⟨_, _, hx, rfl⟩ | ⟨_, _, _, rfl⟩ := h
  · trivial
  · trivial
  · exact hx
  · exact Nat.le_max_right _ _

/-- Every instruction that answers a next state either leaves the latch and the parameters alone, or has taken the fault
it raises, with every other component as it was before the fetch (R246). -/
theorem exec_fault_cases {i : Instr} {s t : State} (h : exec i s = .next t) :
    (t.fault = s.fault ∧ t.params = s.params) ∨ ∃ f, Raises i s f ∧ t = takeFault f (s.setPc s.fetchPc) := by
  cases i <;> simp only [exec] at h
  case ret =>
    unfold execRet at h
    split at h <;> cases h
    · exact Or.inl ⟨rfl, rfl⟩
    · exact Or.inr ⟨_, Or.inr (Or.inl ⟨rfl, by omega, rfl⟩), rfl⟩
  case call =>
    unfold execCall at h
    split at h <;> cases h
    · exact Or.inl ⟨rfl, rfl⟩
    · exact Or.inr ⟨_, Or.inl ⟨_, rfl, by have := s.sp.isLt; omega, rfl⟩, rfl⟩
  case seImm => cases h; left; rw [State.skipIf_eq]; exact ⟨rfl, rfl⟩
  case sneImm => cases h; left; rw [State.skipIf_eq]; exact ⟨rfl, rfl⟩
  case seReg => cases h; left; rw [State.skipIf_eq]; exact ⟨rfl, rfl⟩
  case sneReg => cases h; left; rw [State.skipIf_eq]; exact ⟨rfl, rfl⟩
  case skp x =>
    obtain ⟨hx, rfl⟩ | ⟨-, rfl⟩ := withKey_next h
    · exact Or.inr ⟨_, Or.inr (Or.inr (Or.inl ⟨x, Or.inl rfl, hx, rfl⟩)), rfl⟩
    · left; rw [State.skipIf_eq]; exact ⟨rfl, rfl⟩
  case sknp x =>
    obtain ⟨hx, rfl⟩ | ⟨-, rfl⟩ := withKey_next h
    · exact Or.inr ⟨_, Or.inr (Or.inr (Or.inl ⟨x, Or.inr rfl, hx, rfl⟩)), rfl⟩
    · left; rw [State.skipIf_eq]; exact ⟨rfl, rfl⟩
  case orReg => cases h; left; rw [writeLogic_only_v]; exact ⟨rfl, rfl⟩
  case andReg => cases h; left; rw [writeLogic_only_v]; exact ⟨rfl, rfl⟩
  case xorReg => cases h; left; rw [writeLogic_only_v]; exact ⟨rfl, rfl⟩
  case ldKey => unfold execLdKey at h; split at h <;> cases h <;> exact Or.inl ⟨rfl, rfl⟩
  case drw x y n =>
    obtain ⟨hb, h⟩ | ⟨-, rfl⟩ := withBlock_next h
    · exact Or.inr ⟨_, Or.inr (Or.inr (Or.inr ⟨_, Or.inr (Or.inr (Or.inr ⟨x, y, n, rfl, rfl⟩)), hb, rfl⟩)), h⟩
    · exact Or.inl ⟨rfl, rfl⟩
  case ldB x =>
    obtain ⟨hb, h⟩ | ⟨-, rfl⟩ := withBlock_next h
    · exact Or.inr ⟨_, Or.inr (Or.inr (Or.inr ⟨_, Or.inl ⟨x, rfl, rfl⟩, hb, rfl⟩)), h⟩
    · left; rw [State.writeBytes_eq]; exact ⟨rfl, rfl⟩
  case storeRegs x =>
    obtain ⟨hb, h⟩ | ⟨-, rfl⟩ := withBlock_next h
    · exact Or.inr ⟨_, Or.inr (Or.inr (Or.inr ⟨_, Or.inr (Or.inl ⟨x, rfl, rfl⟩), hb, rfl⟩)), h⟩
    · left; rw [State.writeBytes_eq]; exact ⟨rfl, rfl⟩
  case loadRegs x =>
    obtain ⟨hb, h⟩ | ⟨-, rfl⟩ := withBlock_next h
    · exact Or.inr ⟨_, Or.inr (Or.inr (Or.inr ⟨_, Or.inr (Or.inr (Or.inl ⟨x, rfl, rfl⟩)), hb, rfl⟩)), h⟩
    · left; rw [loadRegBlock_only_v]; exact ⟨rfl, rfl⟩
  all_goals (cases h; exact Or.inl ⟨rfl, rfl⟩)

/-- STEP(rnd) differs from the bare step on RND alone (R70). -/
theorem execGiven_eq_exec (b : Byte) {i : Instr} (h : ∀ x nn, i ≠ .rnd x nn) : execGiven b i = exec i := by
  funext s
  cases i <;> first | rfl | exact absurd rfl (h _ _)

/-- What STEP(rnd) gives the host when its cycle answers a next state. -/
theorem hostStep_next {b : Byte} {s t : State} (h : cycle (execGiven b) s = .next t) :
    hostStep b s = (t, stepResult t) := by
  simp only [hostStep, h]

/-- STEP returns a fault exactly when it is latched (R246). -/
theorem stepResult_eq_stepFault {t : State} {f : Fault} : stepResult t = .stepFault f ↔ t.fault = some f := by
  unfold stepResult
  cases t.fault <;> simp

/-- The same for an instruction of STEP(rnd). -/
theorem execGiven_fault_cases {b : Byte} {i : Instr} {s t : State} (h : execGiven b i s = .next t) :
    (t.fault = s.fault ∧ t.params = s.params) ∨ ∃ f, Raises i s f ∧ t = takeFault f (s.setPc s.fetchPc) := by
  unfold execGiven at h
  split at h
  · cases h; exact Or.inl ⟨rfl, rfl⟩
  · exact exec_fault_cases h

/-- Everything DRW does to the framebuffer: exactly the cells its set bits land on are flipped, and the collision is that
one of them was lit (R202). -/
theorem drawSprite_spec (x y n : Nibble) (s : State) (hit : Fin 2048 → Prop)
    (hh : ∀ k, hit k ↔ ∃ r c, r < n.toNat ∧ c < 8 ∧ (s.readByte (s.i.toNat + r)).getLsbD (7 - c) = true ∧
      k.val = ((s.getV x).toNat + c) % 64 + 64 * (((s.getV y).toNat + r) % 32)) :
    (∀ k, hit k → (drawSprite x y n s).1[k.val] = !s.fb[k.val]) ∧
    (∀ k, ¬ hit k → (drawSprite x y n s).1[k.val] = s.fb[k.val]) ∧
    ((drawSprite x y n s).2 = true ↔ ∃ k, hit k ∧ s.fb[k.val] = true) := by
  have hn := n.isLt
  have hnd := spriteCells_nodup (s.getV x).toNat (s.readBytes s.i.toNat n.toNat) (s.getV y).toNat
    (by rw [State.readBytes_length]; omega)
  obtain ⟨h1, h2⟩ := drawCells_spec s.fb hnd
  have hmem (k) : k ∈ spriteCells (s.getV x).toNat (s.getV y).toNat (s.readBytes s.i.toNat n.toNat) ↔ hit k := by
    rw [mem_spriteCells, hh]
    constructor
    · rintro ⟨r, c, hr, hc, hb, rfl⟩
      rw [State.getElem_readBytes] at hb
      exact ⟨r, c, by rwa [State.readBytes_length] at hr, hc, hb, rfl⟩
    · rintro ⟨r, c, hr, hc, hb, hk⟩
      refine ⟨r, c, by rwa [State.readBytes_length], hc, ?_, Fin.ext hk⟩
      rw [State.getElem_readBytes]
      exact hb
  refine ⟨fun k hk => ?_, fun k hk => ?_, ?_⟩
  · rw [drawSprite, h1, decide_eq_true ((hmem k).2 hk)]
    simp
  · rw [drawSprite, h1, decide_eq_false fun h => hk ((hmem k).1 h)]
    simp
  · rw [drawSprite, h2, List.any_eq_true]
    exact exists_congr fun k => and_congr_left fun _ => hmem k

end Sys2Proof.Machine
end

