-- ==== Sys2Proof/Laws/PerInstr.lean ====
section
/-! SUPPORT. Per instruction: its row is in the opcode map (spec/30_encoding.md R77), and its word selects that row. -/

namespace Sys2Proof.Laws

/-- The nibbles of a word of format FXF (R74). -/
theorem encodeFXF_nibbles (o x : Nibble) (f : Byte) : nibble1 (encodeFXF o x f) = o ∧
    nibble3 (encodeFXF o x f) = f.extractLsb' 4 4 ∧ nibble4 (encodeFXF o x f) = f.extractLsb' 0 4 := by
  rw [encodeFXF_eq]
  exact ⟨nibble1_wordOf .., nibble3_wordOf .., nibble4_wordOf ..⟩

/-- The instruction's row is one of the map's, and the encoder's word of the instruction selects it (R73, R77). -/
def EncodesIntoRow.Statement (i : Instr) : Prop := i.row ∈ opcodeMap ∧ i.row.selects (encode i) = true

theorem EncodesIntoRow.nop : EncodesIntoRow.Statement (.nop) :=
  ⟨by decide, by decide⟩

theorem EncodesIntoRow.cls : EncodesIntoRow.Statement (.cls) :=
  ⟨by decide, by decide⟩

theorem EncodesIntoRow.ret : EncodesIntoRow.Statement (.ret) :=
  ⟨by decide, by decide⟩

theorem EncodesIntoRow.jp (nnn : Addr) : EncodesIntoRow.Statement (.jp nnn) :=
  ⟨show (⟨"JP_nnn", 0x1000, 0xF000⟩ : OpcodeRow) ∈ opcodeMap by decide,
    beq_iff_eq.2 ((and_F000 _ 0x1).2 ((congrArg nibble1 (encodeFA_eq ..)).trans (nibble1_wordOf ..)))⟩

theorem EncodesIntoRow.call (nnn : Addr) : EncodesIntoRow.Statement (.call nnn) :=
  ⟨show (⟨"CALL_nnn", 0x2000, 0xF000⟩ : OpcodeRow) ∈ opcodeMap by decide,
    beq_iff_eq.2 ((and_F000 _ 0x2).2 ((congrArg nibble1 (encodeFA_eq ..)).trans (nibble1_wordOf ..)))⟩

theorem EncodesIntoRow.seImm (x : Nibble) (nn : Byte) : EncodesIntoRow.Statement (.seImm x nn) :=
  ⟨show (⟨"SE_Vx__nn", 0x3000, 0xF000⟩ : OpcodeRow) ∈ opcodeMap by decide,
    beq_iff_eq.2 ((and_F000 _ 0x3).2 ((congrArg nibble1 (encodeFXB_eq ..)).trans (nibble1_wordOf ..)))⟩

theorem EncodesIntoRow.sneImm (x : Nibble) (nn : Byte) : EncodesIntoRow.Statement (.sneImm x nn) :=
  ⟨show (⟨"SNE_Vx__nn", 0x4000, 0xF000⟩ : OpcodeRow) ∈ opcodeMap by decide,
    beq_iff_eq.2 ((and_F000 _ 0x4).2 ((congrArg nibble1 (encodeFXB_eq ..)).trans (nibble1_wordOf ..)))⟩

theorem EncodesIntoRow.seReg (x y : Nibble) : EncodesIntoRow.Statement (.seReg x y) :=
  ⟨show (⟨"SE_Vx__Vy", 0x5000, 0xF00F⟩ : OpcodeRow) ∈ opcodeMap by decide,
    beq_iff_eq.2 ((and_F00F _ 0x5 0x0).2 ⟨nibble1_wordOf .., nibble4_wordOf ..⟩)⟩

theorem EncodesIntoRow.ldImm (x : Nibble) (nn : Byte) : EncodesIntoRow.Statement (.ldImm x nn) :=
  ⟨show (⟨"LD_Vx__nn", 0x6000, 0xF000⟩ : OpcodeRow) ∈ opcodeMap by decide,
    beq_iff_eq.2 ((and_F000 _ 0x6).2 ((congrArg nibble1 (encodeFXB_eq ..)).trans (nibble1_wordOf ..)))⟩

theorem EncodesIntoRow.addImm (x : Nibble) (nn : Byte) : EncodesIntoRow.Statement (.addImm x nn) :=
  ⟨show (⟨"ADD_Vx__nn", 0x7000, 0xF000⟩ : OpcodeRow) ∈ opcodeMap by decide,
    beq_iff_eq.2 ((and_F000 _ 0x7).2 ((congrArg nibble1 (encodeFXB_eq ..)).trans (nibble1_wordOf ..)))⟩

theorem EncodesIntoRow.ldReg (x y : Nibble) : EncodesIntoRow.Statement (.ldReg x y) :=
  ⟨show (⟨"LD_Vx__Vy", 0x8000, 0xF00F⟩ : OpcodeRow) ∈ opcodeMap by decide,
    beq_iff_eq.2 ((and_F00F _ 0x8 0x0).2 ⟨nibble1_wordOf .., nibble4_wordOf ..⟩)⟩

theorem EncodesIntoRow.orReg (x y : Nibble) : EncodesIntoRow.Statement (.orReg x y) :=
  ⟨show (⟨"OR_Vx__Vy", 0x8001, 0xF00F⟩ : OpcodeRow) ∈ opcodeMap by decide,
    beq_iff_eq.2 ((and_F00F _ 0x8 0x1).2 ⟨nibble1_wordOf .., nibble4_wordOf ..⟩)⟩

theorem EncodesIntoRow.andReg (x y : Nibble) : EncodesIntoRow.Statement (.andReg x y) :=
  ⟨show (⟨"AND_Vx__Vy", 0x8002, 0xF00F⟩ : OpcodeRow) ∈ opcodeMap by decide,
    beq_iff_eq.2 ((and_F00F _ 0x8 0x2).2 ⟨nibble1_wordOf .., nibble4_wordOf ..⟩)⟩

theorem EncodesIntoRow.xorReg (x y : Nibble) : EncodesIntoRow.Statement (.xorReg x y) :=
  ⟨show (⟨"XOR_Vx__Vy", 0x8003, 0xF00F⟩ : OpcodeRow) ∈ opcodeMap by decide,
    beq_iff_eq.2 ((and_F00F _ 0x8 0x3).2 ⟨nibble1_wordOf .., nibble4_wordOf ..⟩)⟩

theorem EncodesIntoRow.addReg (x y : Nibble) : EncodesIntoRow.Statement (.addReg x y) :=
  ⟨show (⟨"ADD_Vx__Vy", 0x8004, 0xF00F⟩ : OpcodeRow) ∈ opcodeMap by decide,
    beq_iff_eq.2 ((and_F00F _ 0x8 0x4).2 ⟨nibble1_wordOf .., nibble4_wordOf ..⟩)⟩

theorem EncodesIntoRow.subReg (x y : Nibble) : EncodesIntoRow.Statement (.subReg x y) :=
  ⟨show (⟨"SUB_Vx__Vy", 0x8005, 0xF00F⟩ : OpcodeRow) ∈ opcodeMap by decide,
    beq_iff_eq.2 ((and_F00F _ 0x8 0x5).2 ⟨nibble1_wordOf .., nibble4_wordOf ..⟩)⟩

theorem EncodesIntoRow.shr (x : Nibble) : EncodesIntoRow.Statement (.shr x) :=
  ⟨show (⟨"SHR_Vx", 0x8006, 0xF00F⟩ : OpcodeRow) ∈ opcodeMap by decide,
    beq_iff_eq.2 ((and_F00F _ 0x8 0x6).2 ⟨nibble1_wordOf .., nibble4_wordOf ..⟩)⟩

theorem EncodesIntoRow.subnReg (x y : Nibble) : EncodesIntoRow.Statement (.subnReg x y) :=
  ⟨show (⟨"SUBN_Vx__Vy", 0x8007, 0xF00F⟩ : OpcodeRow) ∈ opcodeMap by decide,
    beq_iff_eq.2 ((and_F00F _ 0x8 0x7).2 ⟨nibble1_wordOf .., nibble4_wordOf ..⟩)⟩

theorem EncodesIntoRow.shl (x : Nibble) : EncodesIntoRow.Statement (.shl x) :=
  ⟨show (⟨"SHL_Vx", 0x800E, 0xF00F⟩ : OpcodeRow) ∈ opcodeMap by decide,
    beq_iff_eq.2 ((and_F00F _ 0x8 0xE).2 ⟨nibble1_wordOf .., nibble4_wordOf ..⟩)⟩

theorem EncodesIntoRow.sneReg (x y : Nibble) : EncodesIntoRow.Statement (.sneReg x y) :=
  ⟨show (⟨"SNE_Vx__Vy", 0x9000, 0xF00F⟩ : OpcodeRow) ∈ opcodeMap by decide,
    beq_iff_eq.2 ((and_F00F _ 0x9 0x0).2 ⟨nibble1_wordOf .., nibble4_wordOf ..⟩)⟩

theorem EncodesIntoRow.ldI (nnn : Addr) : EncodesIntoRow.Statement (.ldI nnn) :=
  ⟨show (⟨"LD_I__nnn", 0xA000, 0xF000⟩ : OpcodeRow) ∈ opcodeMap by decide,
    beq_iff_eq.2 ((and_F000 _ 0xA).2 ((congrArg nibble1 (encodeFA_eq ..)).trans (nibble1_wordOf ..)))⟩

theorem EncodesIntoRow.jpV0 (nnn : Addr) : EncodesIntoRow.Statement (.jpV0 nnn) :=
  ⟨show (⟨"JP_V0__nnn", 0xB000, 0xF000⟩ : OpcodeRow) ∈ opcodeMap by decide,
    beq_iff_eq.2 ((and_F000 _ 0xB).2 ((congrArg nibble1 (encodeFA_eq ..)).trans (nibble1_wordOf ..)))⟩

theorem EncodesIntoRow.rnd (x : Nibble) (nn : Byte) : EncodesIntoRow.Statement (.rnd x nn) :=
  ⟨show (⟨"RND_Vx__nn", 0xC000, 0xF000⟩ : OpcodeRow) ∈ opcodeMap by decide,
    beq_iff_eq.2 ((and_F000 _ 0xC).2 ((congrArg nibble1 (encodeFXB_eq ..)).trans (nibble1_wordOf ..)))⟩

theorem EncodesIntoRow.drw (x y n : Nibble) : EncodesIntoRow.Statement (.drw x y n) :=
  ⟨show (⟨"DRW_Vx__Vy__n", 0xD000, 0xF000⟩ : OpcodeRow) ∈ opcodeMap by decide,
    beq_iff_eq.2 ((and_F000 _ 0xD).2 (nibble1_wordOf ..))⟩

theorem EncodesIntoRow.skp (x : Nibble) : EncodesIntoRow.Statement (.skp x) :=
  ⟨show (⟨"SKP_Vx", 0xE09E, 0xF0FF⟩ : OpcodeRow) ∈ opcodeMap by decide,
    beq_iff_eq.2 ((and_F0FF _ 0xE 0x9 0xE).2 (encodeFXF_nibbles ..))⟩

theorem EncodesIntoRow.sknp (x : Nibble) : EncodesIntoRow.Statement (.sknp x) :=
  ⟨show (⟨"SKNP_Vx", 0xE0A1, 0xF0FF⟩ : OpcodeRow) ∈ opcodeMap by decide,
    beq_iff_eq.2 ((and_F0FF _ 0xE 0xA 0x1).2 (encodeFXF_nibbles ..))⟩

theorem EncodesIntoRow.ldFromDT (x : Nibble) : EncodesIntoRow.Statement (.ldFromDT x) :=
  ⟨show (⟨"LD_Vx__DT", 0xF007, 0xF0FF⟩ : OpcodeRow) ∈ opcodeMap by decide,
    beq_iff_eq.2 ((and_F0FF _ 0xF 0x0 0x7).2 (encodeFXF_nibbles ..))⟩

theorem EncodesIntoRow.ldKey (x : Nibble) : EncodesIntoRow.Statement (.ldKey x) :=
  ⟨show (⟨"LD_Vx__K", 0xF00A, 0xF0FF⟩ : OpcodeRow) ∈ opcodeMap by decide,
    beq_iff_eq.2 ((and_F0FF _ 0xF 0x0 0xA).2 (encodeFXF_nibbles ..))⟩

theorem EncodesIntoRow.ldDT (x : Nibble) : EncodesIntoRow.Statement (.ldDT x) :=
  ⟨show (⟨"LD_DT__Vx", 0xF015, 0xF0FF⟩ : OpcodeRow) ∈ opcodeMap by decide,
    beq_iff_eq.2 ((and_F0FF _ 0xF 0x1 0x5).2 (encodeFXF_nibbles ..))⟩

theorem EncodesIntoRow.ldST (x : Nibble) : EncodesIntoRow.Statement (.ldST x) :=
  ⟨show (⟨"LD_ST__Vx", 0xF018, 0xF0FF⟩ : OpcodeRow) ∈ opcodeMap by decide,
    beq_iff_eq.2 ((and_F0FF _ 0xF 0x1 0x8).2 (encodeFXF_nibbles ..))⟩

theorem EncodesIntoRow.addI (x : Nibble) : EncodesIntoRow.Statement (.addI x) :=
  ⟨show (⟨"ADD_I__Vx", 0xF01E, 0xF0FF⟩ : OpcodeRow) ∈ opcodeMap by decide,
    beq_iff_eq.2 ((and_F0FF _ 0xF 0x1 0xE).2 (encodeFXF_nibbles ..))⟩

theorem EncodesIntoRow.ldF (x : Nibble) : EncodesIntoRow.Statement (.ldF x) :=
  ⟨show (⟨"LD_F__Vx", 0xF029, 0xF0FF⟩ : OpcodeRow) ∈ opcodeMap by decide,
    beq_iff_eq.2 ((and_F0FF _ 0xF 0x2 0x9).2 (encodeFXF_nibbles ..))⟩

theorem EncodesIntoRow.ldB (x : Nibble) : EncodesIntoRow.Statement (.ldB x) :=
  ⟨show (⟨"LD_B__Vx", 0xF033, 0xF0FF⟩ : OpcodeRow) ∈ opcodeMap by decide,
    beq_iff_eq.2 ((and_F0FF _ 0xF 0x3 0x3).2 (encodeFXF_nibbles ..))⟩

theorem EncodesIntoRow.storeRegs (x : Nibble) : EncodesIntoRow.Statement (.storeRegs x) :=
  ⟨show (⟨"LD__I___Vx", 0xF055, 0xF0FF⟩ : OpcodeRow) ∈ opcodeMap by decide,
    beq_iff_eq.2 ((and_F0FF _ 0xF 0x5 0x5).2 (encodeFXF_nibbles ..))⟩

theorem EncodesIntoRow.loadRegs (x : Nibble) : EncodesIntoRow.Statement (.loadRegs x) :=
  ⟨show (⟨"LD_Vx___I", 0xF065, 0xF0FF⟩ : OpcodeRow) ∈ opcodeMap by decide,
    beq_iff_eq.2 ((and_F0FF _ 0xF 0x6 0x5).2 (encodeFXF_nibbles ..))⟩

end Sys2Proof.Laws
end

