-- ==== Sys2Proof/Machine/Assembly.lean ====
section
/-! DEFINITION. The assembler syntax of spec/30_encoding.md R82 and R83: how an instruction is written, and what bytes a listing gives. It carries no behaviour. -/

namespace Sys2Proof.Machine

/-- One hexadecimal digit. -/
def hexDigit (d : Nibble) : String := String.singleton ("0123456789ABCDEF".toList.getD d.toNat '0')

/-- A register's name, V0 to VF. -/
def asmReg (x : Nibble) : String := "V" ++ hexDigit x

/-- A byte immediate in hexadecimal. -/
def asmByte (b : Byte) : String := "0x" ++ hexDigit (b.extractLsb' 4 4) ++ hexDigit (b.extractLsb' 0 4)

/-- A 12-bit address in hexadecimal. -/
def asmAddr (a : Addr) : String :=
  "0x" ++ hexDigit (a.extractLsb' 8 4) ++ hexDigit (a.extractLsb' 4 4) ++ hexDigit (a.extractLsb' 0 4)

/-- A mnemonic with two operands, destination first. -/
def asmTwo (m a b : String) : String := m ++ " " ++ a ++ ", " ++ b

/-- The assembler line of an instruction (R82). -/
def asmInstr : Instr → String
  | .nop => "NOP"
  | .cls => "CLS"
  | .ret => "RET"
  | .jp nnn => "JP " ++ asmAddr nnn
  | .call nnn => "CALL " ++ asmAddr nnn
  | .seImm x nn => asmTwo "SE" (asmReg x) (asmByte nn)
  | .sneImm x nn => asmTwo "SNE" (asmReg x) (asmByte nn)
  | .seReg x y => asmTwo "SE" (asmReg x) (asmReg y)
  | .ldImm x nn => asmTwo "LD" (asmReg x) (asmByte nn)
  | .addImm x nn => asmTwo "ADD" (asmReg x) (asmByte nn)
  | .ldReg x y => asmTwo "LD" (asmReg x) (asmReg y)
  | .orReg x y => asmTwo "OR" (asmReg x) (asmReg y)
  | .andReg x y => asmTwo "AND" (asmReg x) (asmReg y)
  | .xorReg x y => asmTwo "XOR" (asmReg x) (asmReg y)
  | .addReg x y => asmTwo "ADD" (asmReg x) (asmReg y)
  | .subReg x y => asmTwo "SUB" (asmReg x) (asmReg y)
  | .shr x => "SHR " ++ asmReg x
  | .subnReg x y => asmTwo "SUBN" (asmReg x) (asmReg y)
  | .shl x => "SHL " ++ asmReg x
  | .sneReg x y => asmTwo "SNE" (asmReg x) (asmReg y)
  | .ldI nnn => asmTwo "LD" "I" (asmAddr nnn)
  | .jpV0 nnn => asmTwo "JP" "V0" (asmAddr nnn)
  | .rnd x nn => asmTwo "RND" (asmReg x) (asmByte nn)
  | .drw x y n => asmTwo "DRW" (asmReg x) (asmReg y) ++ ", " ++ "0x" ++ hexDigit n
  | .skp x => "SKP " ++ asmReg x
  | .sknp x => "SKNP " ++ asmReg x
  | .ldFromDT x => asmTwo "LD" (asmReg x) "DT"
  | .ldKey x => asmTwo "LD" (asmReg x) "K"
  | .ldDT x => asmTwo "LD" "DT" (asmReg x)
  | .ldST x => asmTwo "LD" "ST" (asmReg x)
  | .addI x => asmTwo "ADD" "I" (asmReg x)
  | .ldF x => asmTwo "LD" "F" (asmReg x)
  | .ldB x => asmTwo "LD" "B" (asmReg x)
  | .storeRegs x => asmTwo "LD" "[I]" (asmReg x)
  | .loadRegs x => asmTwo "LD" (asmReg x) "[I]"

/-- A line of a listing: an instruction, or the directive DB with its raw bytes (R82, R83). -/
inductive AsmLine where
  | instr (i : Instr)
  | db (bytes : List Byte)
  deriving DecidableEq, Repr

/-- The bytes a listing gives, in order. -/
def assemble : List AsmLine → List Byte
  | [] => []
  | .instr i :: ls => encodeBytes i ++ assemble ls
  | .db bytes :: ls => bytes ++ assemble ls

end Sys2Proof.Machine
end

