-- ==== Sys2Proof/Tests/Slice0.lean ====
section
/-! SUPPORT. The model's own tests: words refused and decoded, one step each on a small state, and for every statement a witness that meets its hypotheses. Expected results are spec/95_test_vectors.md's, whose row a comment names. -/

namespace Sys2Proof.Tests

open Sys2Proof Sys2Proof.Machine

/-! Helpers -/

/-- The state after one step that runs the word, where the step answers one. -/
def after (w : Word) (s : State) : Option State :=
  match step (s.withFetchWord 16 w.toNat) with
  | .next t => some t
  | _ => none

/-- PC and the latch after one step that runs the word. -/
def pcFault (w : Word) (s : State) : Option (Word × Option Fault) := (after w s).map fun t => (t.pc, t.fault)

/-- Two registers after one step that runs the word. -/
def regs (x y : Nibble) (w : Word) (s : State) : Option (Byte × Byte) := (after w s).map fun t => (t.getV x, t.getV y)

/-- I and VF after one step that runs the word. -/
def indexFlag (w : Word) (s : State) : Option (Word × Byte) := (after w s).map fun t => (t.i, t.getV vf)

/-- The bytes at an address after one step that runs the word. -/
def bytesAfter (a n : Nat) (w : Word) (s : State) : Option (List Byte) := (after w s).map fun t => t.readBytes a n

/-- Reset with PC, I, V0 and V1 as given. -/
def base (pc i : Word) (v0 v1 : Byte) : State := (((State.reset.setPc pc).setI i).setV 0 v0).setV 1 v1

/-- The parameters of R7 at their other values. -/
def otherParams : Params := { Params.default with logicVfReset := true, jumpOffsetReg := .vx, fontDigitMask := true }

/-! Words that are no instruction, one class of R78 each -/

theorem test_illegal_0NNN : Word.wellFormed 0x0123 = false ∧ decode 0x0123 = none ∧ decode 0x00E1 = none := by decide
theorem test_illegal_5XYn : Word.wellFormed 0x5121 = false ∧ decode 0x5121 = none := by decide
theorem test_illegal_9XYn : Word.wellFormed 0x912F = false ∧ decode 0x912F = none := by decide
theorem test_illegal_8XYn : Word.wellFormed 0x8128 = false ∧ decode 0x8128 = none ∧ decode 0x812F = none := by decide
theorem test_illegal_EXnn : Word.wellFormed 0xE1A2 = false ∧ decode 0xE1A2 = none := by decide
theorem test_illegal_FXnn : Word.wellFormed 0xF100 = false ∧ decode 0xF100 = none ∧ decode 0xF166 = none := by decide
theorem test_legal_zero : Word.wellFormed 0x0000 = true := by decide
theorem test_bytes_refused_by_name :
    decodeBytes [0x81, 0x28, 0x00] = .error (.unimplementedOpcode 0x8128) ∧
    decodeBytes [0x81] = .error .truncated ∧ decodeBytes [] = .error .truncated := ⟨rfl, rfl, rfl⟩
theorem test_bytes_high_byte_first : decodeBytes [0x6A, 0x2B, 0xFF] = .ok (.ldImm 0xA 0x2B, [0xFF]) := rfl

/-! Every constructor's word, written out from R77 -/

theorem test_decode_fixed : decode 0x0000 = some .nop ∧ decode 0x00E0 = some .cls ∧ decode 0x00EE = some .ret := by
  decide
theorem test_decode_address :
    decode 0x1ABC = some (.jp 0xABC) ∧ decode 0x2ABC = some (.call 0xABC) ∧
    decode 0xA2F0 = some (.ldI 0x2F0) ∧ decode 0xB300 = some (.jpV0 0x300) := by decide
theorem test_decode_byte :
    decode 0x3342 = some (.seImm 0x3 0x42) ∧ decode 0x4342 = some (.sneImm 0x3 0x42) ∧
    decode 0x6A2B = some (.ldImm 0xA 0x2B) ∧ decode 0x7220 = some (.addImm 0x2 0x20) ∧
    decode 0xC30F = some (.rnd 0x3 0x0F) := by decide
theorem test_decode_two_registers :
    decode 0x5120 = some (.seReg 0x1 0x2) ∧ decode 0x9120 = some (.sneReg 0x1 0x2) ∧
    decode 0x8010 = some (.ldReg 0x0 0x1) ∧ decode 0x8011 = some (.orReg 0x0 0x1) ∧
    decode 0x8012 = some (.andReg 0x0 0x1) ∧ decode 0x8013 = some (.xorReg 0x0 0x1) ∧
    decode 0x8014 = some (.addReg 0x0 0x1) ∧ decode 0x8015 = some (.subReg 0x0 0x1) ∧
    decode 0x8017 = some (.subnReg 0x0 0x1) := by decide
theorem test_decode_shifts :
    decode 0x8406 = some (.shr 0x4) ∧ decode 0x84F6 = some (.shr 0x4) ∧
    decode 0x840E = some (.shl 0x4) ∧ decode 0x84FE = some (.shl 0x4) := by decide
theorem test_decode_sprite : decode 0xD12F = some (.drw 0x1 0x2 0xF) := by decide
theorem test_decode_keys :
    decode 0xE19E = some (.skp 0x1) ∧ decode 0xE1A1 = some (.sknp 0x1) ∧ decode 0xF50A = some (.ldKey 0x5) := by decide
theorem test_decode_timers :
    decode 0xF307 = some (.ldFromDT 0x3) ∧ decode 0xF315 = some (.ldDT 0x3) ∧ decode 0xF318 = some (.ldST 0x3) := by
  decide
theorem test_decode_index :
    decode 0xF51E = some (.addI 0x5) ∧ decode 0xF229 = some (.ldF 0x2) ∧ decode 0xF333 = some (.ldB 0x3) ∧
    decode 0xF255 = some (.storeRegs 0x2) ∧ decode 0xF265 = some (.loadRegs 0x2) := by decide
theorem test_encode :
    encode (.drw 0x1 0x2 0xF) = 0xD12F ∧ encode (.jp 0xABC) = 0x1ABC ∧ encode (.shr 0x4) = 0x8406 ∧
    encodeBytes (.loadRegs 0x2) = [0xF2, 0x65] := by decide
theorem test_table_word : decodeTableWord 16 0xD12F = some (.drw 0x1 0x2 0xF) ∧ decodeTableWord 16 0x5121 = none := by
  decide

/-! The step -/

-- E1, E2
theorem test_step_nop : pcFault 0x0000 State.reset = some (0x202, none) ∧
    pcFault 0x0000 (State.reset.setPc 0xFFE) = some (0x1000, none) := by decide
-- E3, E4
theorem test_step_fetch_outside :
    step (State.reset.setPc 0x1000) = .next (takeFault (.memoryOutOfBounds 0x1000) (State.reset.setPc 0x1000)) ∧
    step (State.reset.setPc 0xFFF) = .next (takeFault (.memoryOutOfBounds 0x1000) (State.reset.setPc 0xFFF)) :=
  ⟨rfl, rfl⟩
-- E5
theorem test_step_odd_pc : (after 0x6012 (State.reset.setPc 0x201)).map (fun t => (t.getV 0, t.pc)) = some (0x12, 0x203) := by
  decide
-- E6
theorem test_step_illegal : pcFault 0x0123 State.reset = some (0x200, some (.unimplementedOpcode 0x0123)) := by decide
-- M11 as the host sees it
theorem test_step_returns_the_fault :
    (hostApply (.step 0x00) ((base 0x200 0xFFE 0x7B 0).withFetchWord 16 0xF033)).2 = .stepFault (.memoryOutOfBounds 0x1000) ∧
    (hostApply (.step 0x00) ((base 0x200 0xFFD 0x7B 0).withFetchWord 16 0xF033)).2 = .ok := by decide
-- E11, E12
theorem test_step_latched :
    hostApply (.step 0x00) (takeFault (.unimplementedOpcode 0x0123) State.reset) =
      (takeFault (.unimplementedOpcode 0x0123) State.reset, .stepFault (.unimplementedOpcode 0x0123)) ∧
    hostApply .reset (takeFault (.unimplementedOpcode 0x0123) State.reset) = (State.reset, .nothing) := ⟨rfl, rfl⟩

/-! Control flow -/

-- C1
theorem test_jp : pcFault 0x1ABC State.reset = some (0xABC, none) := by decide
-- C4
theorem test_call_last_slot :
    (after 0x2600 { State.reset.setPc 0x400 with sp := 15 }).map (fun t => (t.stack[15], t.sp, t.pc)) =
      some (0x402, 16, 0x600) := by decide
-- C5
theorem test_call_overflow :
    (after 0x2600 { State.reset.setPc 0x400 with sp := 16 }).map (fun t => (t.sp, t.pc, t.fault)) =
      some (16, 0x400, some (.stackOverflow 0x400)) := by decide
-- C6
theorem test_ret_keeps_the_slot :
    (after 0x00EE { State.reset.setPc 0x600 with
        sp := 2, stack := (State.reset.stack.set 0 0x202).set 1 0x402 }).map (fun t => (t.sp, t.pc, t.stack[1])) =
      some (1, 0x402, 0x402) := by decide
-- C7
theorem test_ret_underflow : pcFault 0x00EE State.reset = some (0x200, some (.stackUnderflow 0x200)) := by decide
-- C8, C9
theorem test_se_byte : pcFault 0x3342 (State.reset.setV 3 0x42) = some (0x204, none) ∧
    pcFault 0x3343 (State.reset.setV 3 0x42) = some (0x202, none) := by decide
-- C16
theorem test_se_byte_at_the_end : pcFault 0x3000 (State.reset.setPc 0xFFC) = some (0x1000, none) := by decide
-- C10, C11
theorem test_sne_byte : pcFault 0x4342 (State.reset.setV 3 0x42) = some (0x202, none) ∧
    pcFault 0x43FF (State.reset.setV 3 0x42) = some (0x204, none) := by decide
-- C12, C13
theorem test_se_reg : pcFault 0x5110 (State.reset.setV 1 0x07) = some (0x204, none) ∧
    pcFault 0x5120 ((State.reset.setV 1 0x07).setV 2 0x08) = some (0x202, none) := by decide
-- C14, C15
theorem test_sne_reg : pcFault 0x9110 (State.reset.setV 1 0x07) = some (0x202, none) ∧
    pcFault 0x9120 ((State.reset.setV 1 0x07).setV 2 0x08) = some (0x204, none) := by decide
-- C18
theorem test_jp_v0_unreduced : pcFault 0xBFFF (State.reset.setV 0 0xFF) = some (0x10FE, none) := by decide
-- C19
theorem test_jp_vx : pcFault 0xB300 { (State.reset.setV 0 0x01).setV 3 0x20 with params := otherParams } =
    some (0x320, none) := by decide

/-! Registers and arithmetic -/

-- A1
theorem test_ld_byte : regs 0xA 0xF 0x6A2B State.reset = some (0x2B, 0x00) := by decide
-- A2
theorem test_add_byte_no_flag : regs 2 0xF 0x7220 ((State.reset.setV 2 0xF0).setV 0xF 0xAA) = some (0x10, 0xAA) := by decide
-- A5
theorem test_ld_reg : regs 0 1 0x8010 (State.reset.setV 1 0x05) = some (0x05, 0x05) := by decide
-- A6
theorem test_or : regs 0 0xF 0x8011 ((base 0x200 0 0x0F 0xF0).setV 0xF 0x07) = some (0xFF, 0x07) := by decide
theorem test_or_resets_vf :
    regs 0 0xF 0x8011 { (base 0x200 0 0x0F 0xF0).setV 0xF 0x07 with params := otherParams } = some (0xFF, 0x00) := by decide
-- A7
theorem test_and : regs 0 1 0x8012 (base 0x200 0 0x3C 0x0F) = some (0x0C, 0x0F) := by decide
-- A8, A9
theorem test_xor : regs 0 1 0x8013 (base 0x200 0 0xFF 0x0F) = some (0xF0, 0x0F) ∧
    regs 0 1 0x8003 (base 0x200 0 0x5A 0x00) = some (0x00, 0x00) := by decide
-- A11, A13
theorem test_add_carry : regs 0 0xF 0x8014 (base 0x200 0 0x7F 0x80) = some (0xFF, 0) ∧
    regs 1 0xF 0x8F14 ((base 0x200 0 0 0x01).setV 0xF 0xFF) = some (0x01, 1) := by decide
-- A14
theorem test_add_reads_old_vf : regs 0 0xF 0x80F4 ((base 0x200 0 0x10 0).setV 0xF 0x05) = some (0x15, 0) := by decide
-- A16, A18
theorem test_sub_borrow : regs 0 0xF 0x8015 (base 0x200 0 0x03 0x05) = some (0xFE, 0) ∧
    regs 0 0xF 0x8005 (base 0x200 0 0x05 0) = some (0x00, 1) := by decide
-- A20, A21
theorem test_subn_borrow : regs 0 0xF 0x8017 (base 0x200 0 0x03 0x05) = some (0x02, 1) ∧
    regs 0 0xF 0x8017 (base 0x200 0 0x05 0x03) = some (0xFE, 0) := by decide
-- A25, A26
theorem test_shr_in_place : regs 0 1 0x8016 (base 0x200 0 0x02 0x99) = some (0x01, 0x99) ∧
    regs 0 0xF 0x8F06 (State.reset.setV 0xF 0x03) = some (0, 1) := by decide
-- A27, A28
theorem test_shl : regs 0 0xF 0x800E (base 0x200 0 0xFF 0) = some (0xFE, 1) ∧
    regs 0 0xF 0x800E (base 0x200 0 0x40 0) = some (0x80, 0) := by decide
-- A30
theorem test_rnd_given : ((hostApply (.step 0x5A) (State.reset.withFetchWord 16 0xC0F0)).1.getV 0,
    (hostApply (.step 0x5A) (State.reset.withFetchWord 16 0xC0F0)).2) = (0x50, .ok) := by decide
-- A31, for whatever byte the free value is
theorem test_rnd_free_masked (b : Byte) (s : State) : (rndEffect b 3 0x00 s).getV 3 = 0x00 := by simp [rndEffect]

/-! The address register and memory -/

-- M1
theorem test_ld_i : indexFlag 0xAFFF State.reset = some (0x0FFF, 0) := by decide
-- M3, M4
theorem test_add_i : indexFlag 0xF01E (base 0x200 0xFFFF 0x02 0) = some (0x0001, 0) ∧
    pcFault 0xF01E (base 0x200 0x0FFF 0x01 0) = some (0x202, none) := by decide
-- M5, M7
theorem test_ld_f : indexFlag 0xF029 (base 0x200 0 0x0F 0) = some (0x004B, 0) ∧
    indexFlag 0xF029 (base 0x200 0 0xFF 0) = some (0x04FB, 0) := by decide
theorem test_ld_f_masked : indexFlag 0xF029 { base 0x200 0 0xFF 0 with params := otherParams } = some (0x004B, 0) := by decide
-- M10
theorem test_ld_b : bytesAfter 0xFFD 3 0xF033 (base 0x200 0xFFD 0x7B 0) = some [0x01, 0x02, 0x03] := by decide
-- M11
theorem test_ld_b_outside : pcFault 0xF033 (base 0x200 0xFFE 0x7B 0) = some (0x200, some (.memoryOutOfBounds 0x1000)) ∧
    bytesAfter 0xFFE 2 0xF033 (base 0x200 0xFFE 0x7B 0) = some [0x00, 0x00] := by decide
-- M12
theorem test_store_regs : bytesAfter 0x400 4 0xF255 ((base 0x200 0x400 0x11 0x22).setV 2 0x33) =
    some [0x11, 0x22, 0x33, 0x00] := by decide
-- M14
theorem test_store_regs_outside :
    pcFault 0xFF55 (base 0x200 0xFF1 0x11 0) = some (0x200, some (.memoryOutOfBounds 0x1000)) := by decide
-- M16
theorem test_load_regs : regs 2 3 0xF265 (((base 0x200 0x400 0 0).setV 3 0x44).writeBytes 0x400 [0x11, 0x22, 0x33]) =
    some (0x33, 0x44) := by decide
-- M15's address
theorem test_load_regs_outside :
    pcFault 0xF065 (base 0x200 0x1000 0 0) = some (0x200, some (.memoryOutOfBounds 0x1000)) := by decide

/-! Display -/

/-- The framebuffer with one lit cell. -/
def litAt (k : Fin 2048) : Framebuffer := Framebuffer.blank.set k.val true

/-- Some cells, in order, and VF after one step that runs the word. -/
def cells (ks : List (Fin 2048)) (w : Word) (s : State) : Option (List Bool × Byte) :=
  (after w s).map fun t => (ks.map fun k => t.fb[k.val], t.getV vf)

-- DV1
theorem test_cls : cells [5, 6] 0x00E0 ((State.reset.setFb (litAt 5)).setV 0xF 0x07) = some ([false, false], 0x07) := by
  decide +kernel
-- DV4: columns 60 to 63 and 0 to 3
theorem test_drw_wraps : cells [59, 60, 63, 0, 3, 4] 0xD011 ((base 0x200 0x300 60 0).writeByte 0x300 0xFF) =
    some ([false, true, true, true, true, false], 0) := by decide +kernel
-- DV6
theorem test_drw_collision :
    cells [4, 5, 6] 0xD011 (((base 0x200 0x300 0 0).writeByte 0x300 0xFF).setFb (litAt 5)) =
      some ([true, false, true], 1) := by decide +kernel

/-! Keys and timers -/

-- K1, K2
theorem test_skp : pcFault 0xE19E ((State.reset.setV 1 5).setKey 5 true) = some (0x204, none) ∧
    pcFault 0xE19E (State.reset.setV 1 5) = some (0x202, none) := by decide
-- K5
theorem test_skp_no_key : pcFault 0xE19E (State.reset.setV 1 0x10) = some (0x200, some (.keyIndexOutOfRange 0x10)) := by
  decide
-- K3, K4
theorem test_sknp : pcFault 0xE1A1 (State.reset.setV 1 5) = some (0x204, none) ∧
    pcFault 0xE1A1 ((State.reset.setV 1 5).setKey 5 true) = some (0x202, none) := by decide
-- K6
theorem test_sknp_no_key : pcFault 0xE1A1 (State.reset.setV 1 0xFF) = some (0x200, some (.keyIndexOutOfRange 0xFF)) := by
  decide
-- K7
theorem test_ld_key_lowest : (after 0xF50A ((State.reset.setKey 9 true).setKey 3 true)).map (fun t => (t.getV 5, t.pc)) =
    some (0x03, 0x202) := by decide
-- K8
theorem test_ld_key_waits : (after 0xF50A (State.reset.setV 5 0x77)).map (fun t => (t.getV 5, t.pc)) = some (0x77, 0x200) := by
  decide
-- T1
theorem test_ld_from_dt : (after 0xF307 (State.reset.setDT 0x3C)).map (fun t => (t.getV 3, t.dt)) = some (0x3C, 0x3C) := by
  decide
-- T2
theorem test_ld_dt : (after 0xF315 (State.reset.setV 3 0x3C)).map (fun t => (t.dt, t.st)) = some (0x3C, 0) := by decide
-- T3
theorem test_ld_st : (after 0xF318 (State.reset.setV 3 0x02)).map (fun t => (t.dt, t.st)) = some (0, 0x02) := by decide

/-! The host's operations -/

-- T4, T5
theorem test_tick_delay : (hostApply .tickDelay State.reset).1.dt = 0 ∧
    (hostApply .tickDelay (State.reset.setDT 1)).1.dt = 0 := by decide
-- T6, T7, T8
theorem test_tick_sound : (hostApply .tickSound (State.reset.setST 2)).2 = .sound false ∧
    (hostApply .tickSound (State.reset.setST 1)).2 = .sound true ∧
    (hostApply .tickSound State.reset).2 = .sound false := by decide
-- H1, H2, H3
theorem test_set_key : (hostApply (.setKey 4 true) State.reset).1.key 4 = true ∧
    (hostApply (.setKey 4 false) (State.reset.setKey 4 true)).1.key 4 = false ∧
    (hostApply (.setKey 16 true) State.reset).2 = .keyIndexInvalid 16 := by decide
-- L4
theorem test_load : ((hostApply (.load [0x12, 0x00]) ((State.reset.setPc 0x456).setV 0 9)).1.readBytes 0x200 2,
    (hostApply (.load [0x12, 0x00]) ((State.reset.setPc 0x456).setV 0 9)).1.pc) = ([0x12, 0x00], 0x200) := by decide
-- L3
theorem test_load_too_long (bytes : List Byte) (h : bytes.length = 3585) :
    (hostApply (.load bytes) State.reset).2 = .loadSizeViolation 3585 := by
  simp only [hostApply, hostLoad, h]
  rfl
theorem test_result_codes : resultCode (.loadSizeViolation 3585) = some 16 ∧ resultCode (.keyIndexInvalid 16) = some 17 ∧
    resultCode (.stepFault (.keyIndexOutOfRange 0x10)) = some 5 := by decide
-- the first lines of P1, assembled as its image gives them
theorem test_assembly : assemble [.instr (.ldImm 0 0x00), .instr (.ldImm 1 0x05), .db [0xC0, 0x80]] =
    [0x60, 0x00, 0x61, 0x05, 0xC0, 0x80] := by decide
theorem test_assembly_text : asmInstr (.addImm 0xA 0x2B) = "ADD VA, 0x2B" ∧ asmInstr (.loadRegs 2) = "LD V2, [I]" := by
  decide

/-! Witnesses: for each statement with hypotheses, operands and a state that meet them, one per clause, at the ends of its
range -/

/-- A running machine whose next word is given, at PC 0x200. -/
def at200 (w : Word) : State := State.reset.withFetchWord 16 w.toNat

/-- The same at the last two bytes of memory. -/
def atEnd (w : Word) : State := (State.reset.setPc 0xFFE).withFetchWord 16 w.toNat

theorem witness_EncodeGivesBackTheWord :
    (decode 0x8AB6 = some (.shr 0xA) ∧ (0x8AB6 : Word) &&& 0xF00F = 0x8006) ∧
    (decode 0x8ABE = some (.shl 0xA) ∧ (0x8ABE : Word) &&& 0xF00F = 0x800E) ∧
    decode 0x8AB7 = some (.subnReg 0xA 0xB) ∧
      ¬ ((0x8AB7 : Word) &&& 0xF00F = 0x8006 ∨ (0x8AB7 : Word) &&& 0xF00F = 0x800E) := by decide
theorem witness_DecodeFollowsTheOpcodeMap :
    (⟨"SUBN_Vx__Vy", 0x8007, 0xF00F⟩ : OpcodeRow) ∈ opcodeMap ∧
    (⟨"SUBN_Vx__Vy", 0x8007, 0xF00F⟩ : OpcodeRow).selects 0x8AB7 = true ∧
    ∀ r, r ∈ opcodeMap → r.selects 0x5121 = false := by decide
theorem witness_StepRunsTheDecodedInstruction :
    ((at200 0x8AB7).Running ∧ (at200 0x8AB7).FetchInside ∧ decode (at200 0x8AB7).wordAtPc = some (.subnReg 0xA 0xB) ∧
      (∀ x nn, Instr.subnReg 0xA 0xB ≠ .rnd x nn) ∧
      ∃ t, exec (.subnReg 0xA 0xB) { at200 0x8AB7 with pc := (at200 0x8AB7).pc + 2 } = .next t) ∧
    ((atEnd 0x00E0).Running ∧ (atEnd 0x00E0).FetchInside ∧ decode (atEnd 0x00E0).wordAtPc = some .cls) ∧
    (at200 0xC30F).Running ∧ (at200 0xC30F).FetchInside ∧ decode (at200 0xC30F).wordAtPc = some (.rnd 3 0x0F) ∧
      ∃ t, execGiven 0xA7 (.rnd 3 0x0F) { at200 0xC30F with pc := (at200 0xC30F).pc + 2 } = .next t :=
  ⟨⟨rfl, by decide, by decide, (fun _ _ h => by cases h), _, rfl⟩, ⟨rfl, by decide, by decide⟩, rfl, by decide, by decide,
    _, rfl⟩
theorem witness_FetchReadsTwoBytesOrFaults :
    (State.reset.setPc 0xFFE).pc.toNat + 1 < 4096 ∧
    ((State.reset.setPc 0x1000).Running ∧ 4096 ≤ (State.reset.setPc 0x1000).pc.toNat) ∧
    (State.reset.setPc 0xFFF).Running ∧ (State.reset.setPc 0xFFF).pc = 0xFFF := by decide
theorem witness_IllegalWordFaults :
    ((at200 0x0123).Running ∧ (at200 0x0123).FetchInside ∧ decode (at200 0x0123).wordAtPc = none) ∧
    (atEnd 0x812F).Running ∧ (atEnd 0x812F).FetchInside ∧ decode (atEnd 0x812F).wordAtPc = none := by decide
theorem witness_LatchedFaultStays :
    (takeFault (.stackUnderflow 0x200) State.reset).fault = some (.stackUnderflow 0x200) ∧
    (HostOp.step 0x00 ≠ .reset ∧ HostOp.tickSound ≠ .reset) ∧ ∀ b, HostOp.tickSound ≠ .step b := by
  exact ⟨rfl, ⟨by decide, by decide⟩, fun b h => by cases h⟩
theorem witness_FaultIsAllOrNothing :
    ((State.reset.setPc 0x1000).Running ∧
      ∃ t, step (State.reset.setPc 0x1000) = .next t ∧ t.fault = some (.memoryOutOfBounds 0x1000)) ∧
    ((at200 0x00EE).Running ∧ ∃ t, step (at200 0x00EE) = .next t ∧ t.fault = some (.stackUnderflow 0x200)) ∧
    ∃ t, hostApply (.step 0x00) (at200 0x00EE) = (t, .stepFault (.stackUnderflow 0x200)) ∧
      t.fault = some (.stackUnderflow 0x200) :=
  ⟨⟨rfl, _, rfl, rfl⟩, ⟨rfl, _, rfl, rfl⟩, _, rfl, rfl⟩
theorem witness_FaultsComeFromTheirCauses :
    (at200 0x0123).Running ∧
    (∃ t, hostApply (.step 0x00) (at200 0x0000) = (t, .ok)) ∧
    (∃ t, hostApply (.step 0x00) (at200 0x0123) = (t, .stepFault (.unimplementedOpcode 0x0123))) ∧
    (∃ t, hostApply (.step 0x00) (State.reset.setPc 0xFFF) = (t, .stepFault (.memoryOutOfBounds 0x1000))) ∧
    (∃ t, hostApply (.step 0x00) ((at200 0xF033).setI 0xFFE) = (t, .stepFault (.memoryOutOfBounds 0x1000))) ∧
    (∃ t, hostApply (.step 0x00) { at200 0x2600 with sp := 16 } = (t, .stepFault (.stackOverflow 0x200))) ∧
    (∃ t, hostApply (.step 0x00) (at200 0x00EE) = (t, .stepFault (.stackUnderflow 0x200))) ∧
    ∃ t, hostApply (.step 0x00) ((at200 0xE19E).setV 1 0x10) = (t, .stepFault (.keyIndexOutOfRange 0x10)) :=
  ⟨rfl, ⟨_, rfl⟩, ⟨_, rfl⟩, ⟨_, rfl⟩, ⟨_, rfl⟩, ⟨_, rfl⟩, ⟨_, rfl⟩, _, rfl⟩
theorem witness_RunningMachineSteps : State.reset.Running := rfl

/-- Far from reset: the last return address, the highest PC a jump can reach, a latched fault and a listed byte. -/
def farState : State :=
  { State.reset with
    pc := 0x10FE, stack := State.reset.stack.set 15 0x1000, sp := 16, mem := [(0x000, 0xAB), (0xFFF, 0x01)] }

theorem farState_inv : farState.Inv := by
  refine ⟨by decide, ⟨by decide, ?_⟩, fun f hf => by cases hf⟩
  decide
theorem witness_StepKeepsTheInvariant :
    farState.Inv ∧ step farState = .next { farState with fault := some (.memoryOutOfBounds 0x10FE) } ∧
    (farState.setPc 0x300).Inv ∧ step (farState.setPc 0x300) = .next (farState.setPc 0x302) := by
  refine ⟨farState_inv, rfl, ⟨farState_inv.mem, ⟨by decide, farState_inv.pc.2⟩, farState_inv.fault⟩, rfl⟩
theorem witness_HostOperationsKeepTheInvariant : farState.Inv := farState_inv

theorem witness_JpSetsPc : (0x1FFF : Word) &&& 0xF000 = 0x1000 := by decide
theorem witness_CallPushesAndJumps :
    (0x2ABC : Word) &&& 0xF000 = 0x2000 ∧ State.reset.sp.val = (0 : Fin 16).val ∧
    ({ State.reset with sp := 15 } : State).sp.val = (15 : Fin 16).val ∧
    ({ State.reset with sp := 16 } : State).sp = 16 := by decide
theorem witness_RetPopsPc :
    ({ State.reset with sp := 1 } : State).sp.val = (0 : Fin 16).val + 1 ∧
    ({ State.reset with sp := 16 } : State).sp.val = (15 : Fin 16).val + 1 ∧ State.reset.sp = 0 := by decide
theorem witness_CallThenRetRestoresPc :
    ({ State.reset with sp := 15 } : State).sp.val < 16 ∧
    ∃ t, exec (.call 0x600) { State.reset with sp := 15 } = .next t ∧
      ∃ u : State, u ≠ t ∧ u.stack = t.stack ∧ u.sp = t.sp :=
  ⟨by decide, _, rfl, { State.reset with stack := State.reset.stack.set 15 0x200, sp := 16, pc := 0x700 },
    fun h => absurd (congrArg State.pc h) (by decide), rfl, rfl⟩
theorem witness_JpV0AddsTheOffsetRegister :
    (0xB300 : Word) &&& 0xF000 = 0xB000 ∧ State.reset.params.jumpOffsetReg = .v0 ∧
    ({ State.reset with params := otherParams } : State).params.jumpOffsetReg = .vx := by decide
theorem witness_SkipsOnAByte :
    (0x3342 : Word) &&& 0xF000 = 0x3000 ∧ (0x4342 : Word) &&& 0xF000 = 0x4000 ∧
    State.reset.getV 3 = 0x00 ∧ State.reset.getV 3 ≠ 0xFF := by decide
theorem witness_SkipsOnTwoRegisters :
    (0x5120 : Word) &&& 0xF00F = 0x5000 ∧ (0x9120 : Word) &&& 0xF00F = 0x9000 ∧
    ((0x5121 : Word) &&& 0xF000 = 0x5000 ∧ (0x5121 : Word) &&& 0x000F ≠ 0) ∧
    ((0x912F : Word) &&& 0xF000 = 0x9000 ∧ (0x912F : Word) &&& 0x000F ≠ 0) ∧
    State.reset.getV 1 = State.reset.getV 1 ∧ (State.reset.setV 0xF 0x07).getV 1 ≠ (State.reset.setV 0xF 0x07).getV 0xF := by
  decide

/-- A running machine at the last two bytes of memory whose word skips: PC 0xFFE (R103). -/
theorem witness_SkipPassesOneInstruction :
    ((atEnd 0x3000).Running ∧ (atEnd 0x3000).FetchInside ∧ decode (atEnd 0x3000).wordAtPc = some (.seImm 0 0x00) ∧
      (atEnd 0x3000).getV 0 = 0x00) ∧
    (decode (atEnd 0x4001).wordAtPc = some (.sneImm 0 0x01) ∧ (atEnd 0x4001).getV 0 ≠ 0x01) ∧
    (decode (atEnd 0x5110).wordAtPc = some (.seReg 1 1) ∧ (atEnd 0x5110).getV 1 = (atEnd 0x5110).getV 1) ∧
    (decode ((atEnd 0x9010).setV 1 0x01).wordAtPc = some (.sneReg 0 1) ∧
      ((atEnd 0x9010).setV 1 0x01).getV 0 ≠ ((atEnd 0x9010).setV 1 0x01).getV 1) ∧
    (decode (((atEnd 0xE19E).setV 1 15).setKey 15 true).wordAtPc = some (.skp 1) ∧
      ((((atEnd 0xE19E).setV 1 15).setKey 15 true).getV 1).toNat = (15 : Nibble).toNat ∧
      (((atEnd 0xE19E).setV 1 15).setKey 15 true).key 15 = true) ∧
    decode (atEnd 0xE1A1).wordAtPc = some (.sknp 1) ∧
      ((atEnd 0xE1A1).getV 1).toNat = (0 : Nibble).toNat ∧ (atEnd 0xE1A1).key 0 = false := by decide

theorem witness_LoadsWriteOneRegister :
    (0x6A2B : Word) &&& 0xF000 = 0x6000 ∧ (0x8010 : Word) &&& 0xF00F = 0x8000 := by decide
theorem witness_AddByteWrapsWithoutFlag : (0x7F05 : Word) &&& 0xF000 = 0x7000 ∧ (0x0 : Nibble) ≠ 0xF := by decide
theorem witness_LogicWritesTheResult :
    (0x8011 : Word) &&& 0xF00F = 0x8001 ∧ (0x8012 : Word) &&& 0xF00F = 0x8002 ∧ (0x8013 : Word) &&& 0xF00F = 0x8003 := by
  decide
theorem witness_AddSetsTheCarry :
    (0x8014 : Word) &&& 0xF00F = 0x8004 ∧ (0x0 : Nibble) ≠ vf ∧ (0x1 : Nibble) ≠ 0x0 ∧ (0x1 : Nibble) ≠ vf := by decide
theorem witness_SubSetsTheNotBorrow :
    (0x8015 : Word) &&& 0xF00F = 0x8005 ∧ (0x0 : Nibble) ≠ vf ∧ (0x1 : Nibble) ≠ 0x0 ∧ (0x1 : Nibble) ≠ vf := by decide
theorem witness_SubnSetsTheNotBorrow :
    (0x8017 : Word) &&& 0xF00F = 0x8007 ∧ (0x0 : Nibble) ≠ vf ∧ (0x1 : Nibble) ≠ 0x0 ∧ (0x1 : Nibble) ≠ vf := by decide
theorem witness_ShrMovesTheLowBitOut :
    (0x84F6 : Word) &&& 0xF00F = 0x8006 ∧ (0x4 : Nibble) ≠ vf ∧ (0x1 : Nibble) ≠ 0x4 ∧ (0x1 : Nibble) ≠ vf := by decide
theorem witness_ShlMovesTheHighBitOut :
    (0x84FE : Word) &&& 0xF00F = 0x800E ∧ (0x4 : Nibble) ≠ vf ∧ (0x1 : Nibble) ≠ 0x4 ∧ (0x1 : Nibble) ≠ vf := by decide
theorem witness_RndMasksTheRandomByte : (0xC30F : Word) &&& 0xF000 = 0xC000 := by decide

theorem witness_LdISetsI : (0xA2F0 : Word) &&& 0xF000 = 0xA000 := by decide
theorem witness_AddIWrapsWithoutFlag : (0xF51E : Word) &&& 0xF0FF = 0xF01E := by decide
theorem witness_LdFFindsTheGlyph :
    (0xF229 : Word) &&& 0xF0FF = 0xF029 ∧ State.reset.params.fontDigitMask = false ∧
    ({ State.reset with params := otherParams } : State).params.fontDigitMask = true := by decide
theorem witness_MemoryReadsBackWrites : 4095 < 4096 ∧ 4096 ≤ 4096 ∧ 4094 ≠ 4095 := by decide

/-- The lowest bad address of a block that starts inside, and of one that starts outside; blocks that just fit; no rows. -/
theorem witness_BlockAccessesCheckFirst :
    ((∃ x, (Instr.ldB 0) = .ldB x ∧ 3 = 3) ∧ 2 < 3 ∧ 4096 ≤ (base 0x202 0xFFE 0 0).i.toNat + 2 ∧
      ∀ j, j < 2 → (base 0x202 0xFFE 0 0).i.toNat + j < 4096) ∧
    ((∃ x : Nibble, (Instr.storeRegs 0) = .storeRegs x ∧ 1 = x.toNat + 1) ∧ 0 < 1 ∧
      4096 ≤ (base 0x202 0x1000 0 0).i.toNat + 0 ∧ ∀ j, j < 0 → (base 0x202 0x1000 0 0).i.toNat + j < 4096) ∧
    ((∃ x : Nibble, (Instr.loadRegs 0xF) = .loadRegs x ∧ 16 = x.toNat + 1) ∧
      ∀ k, k < 16 → (base 0x202 0xFF0 0 0).i.toNat + k < 4096) ∧
    (∃ x y m : Nibble, (Instr.drw 0 1 0) = .drw x y m ∧ 0 = m.toNat) ∧
      ∀ k, k < 0 → (base 0x202 0xFFFF 0 0).i.toNat + k < 4096 :=
  ⟨⟨⟨0, rfl, rfl⟩, by decide, by decide, by decide⟩, ⟨⟨0, rfl, rfl⟩, by decide, by decide, by decide⟩,
    ⟨⟨0xF, rfl, rfl⟩, by decide⟩, ⟨0, 1, 0, rfl, rfl⟩, by decide⟩
theorem witness_LdBWritesDecimalDigits :
    (0xF333 : Word) &&& 0xF0FF = 0xF033 ∧ (base 0x202 0xFFD 0 0).i.toNat + 2 < 4096 ∧
    4096 ≤ (base 0x202 0xFFE 0 0).i.toNat + 2 := by decide
theorem witness_StoreRegsWritesTheBlock :
    (0xF255 : Word) &&& 0xF0FF = 0xF055 ∧ (base 0x202 0xFF0 0 0).i.toNat + (0xF : Nibble).toNat < 4096 ∧
    4096 ≤ (base 0x202 0xFF1 0 0).i.toNat + (0xF : Nibble).toNat ∧
    4096 ≤ (base 0x202 0x1000 0 0).i.toNat + (0x0 : Nibble).toNat := by decide
theorem witness_LoadRegsReadsTheBlock :
    (0xF265 : Word) &&& 0xF0FF = 0xF065 ∧ (base 0x202 0xFFF 0 0).i.toNat + (0x0 : Nibble).toNat < 4096 ∧
    4096 ≤ (base 0x202 0xFFF 0 0).i.toNat + (0x1 : Nibble).toNat := by decide
theorem witness_StoreThenLoadRestoresRegisters :
    (base 0x202 0xFFE 0x11 0x22).i.toNat + (0x1 : Nibble).toNat < 4096 ∧
    ∃ t, exec (.storeRegs 0x1) (base 0x202 0xFFE 0x11 0x22) = .next t ∧
      (t.setV 0 0x99).mem = t.mem ∧ (t.setV 0 0x99).params = t.params ∧ (t.setV 0 0x99).i = t.i :=
  ⟨by decide, (base 0x202 0xFFE 0x11 0x22).writeBytes 0xFFE [0x11, 0x22], rfl, rfl, rfl, rfl⟩

/-- M19: a CLS stored over the next instruction; and the last place where that fits. -/
theorem witness_StoredInstructionIsFetchedNext :
    (((base 0x200 0x202 0x00 0xE0).withFetchWord 16 0xF155).Running ∧
      ((base 0x200 0x202 0x00 0xE0).withFetchWord 16 0xF155).FetchInside ∧
      decode ((base 0x200 0x202 0x00 0xE0).withFetchWord 16 0xF155).wordAtPc = some (.storeRegs 1) ∧
      (base 0x200 0x202 0x00 0xE0).i = (base 0x200 0x202 0x00 0xE0).pc + 2 ∧
      decode (wordOfBytes ((base 0x200 0x202 0x00 0xE0).getV 0x0) ((base 0x200 0x202 0x00 0xE0).getV 0x1)) = some .cls) ∧
    (base 0xFFC 0xFFE 0x00 0xE0).i = (base 0xFFC 0xFFE 0x00 0xE0).pc + 2 ∧
    (base 0xFFC 0xFFE 0x00 0xE0).pc.toNat + 3 < 4096 ∧ 1 ≤ (1 : Nibble).toNat ∧
    (base 0xFFC 0xFFE 0x00 0xE0).i.toNat + (1 : Nibble).toNat < 4096 := by decide

/-- The sprite cells of R202, as the statement writes them. -/
def hits (x y n : Nibble) (s : State) (k : Fin 2048) : Prop :=
  ∃ r c, r < n.toNat ∧ c < 8 ∧ (s.readByte (s.i.toNat + r)).getLsbD (7 - c) = true ∧
    k.val = ((s.getV x).toNat + c) % 64 + 64 * (((s.getV y).toNat + r) % 32)

theorem witness_DrwFlipsTheSpriteCells :
    (0xD12F : Word) &&& 0xF000 = 0xD000 ∧
    (0x0 : Nibble).toNat = 0 ∧ (base 0x202 0xFF1 0 0).i.toNat + (0xF : Nibble).toNat ≤ 4096 ∧
    (1 ≤ (1 : Nibble).toNat ∧ 4096 < (base 0x202 0x1000 0 0).i.toNat + (1 : Nibble).toNat) ∧
    hits 0 1 5 (base 0x202 0 0 0) 0 ∧
    (∃ k, hits 0 1 5 ((base 0x202 0 0 0).setFb (litAt 0)) k ∧ ((base 0x202 0 0 0).setFb (litAt 0)).fb[k.val] = true) ∧
    (∀ k, hits 0 1 5 (base 0x202 0 0 0) k → (base 0x202 0 0 0).fb[k.val] = false) ∧
    ¬ hits 0 1 0 (base 0x202 0 0 0) 0 := by
  refine ⟨by decide, by decide, by decide, by decide, ⟨0, 0, by decide, by decide, by decide, by decide⟩,
    ⟨0, ⟨0, 0, by decide, by decide, by decide, by decide⟩, ?_⟩, fun k _ => ?_, ?_⟩
  · simp [State.setFb, litAt]
  · simp [base, State.setPc, State.setI, State.setV, State.reset, State.resetWith, Framebuffer.blank]
  · rintro ⟨r, c, hr, -⟩
    exact absurd hr (Nat.not_lt_zero r)
theorem witness_RasterizerLaws :
    (0x0 : Nibble) ≠ vf ∧ (0x1 : Nibble) ≠ vf ∧ (base 0x202 0xFFF 63 31).i.toNat + (1 : Nibble).toNat ≤ 4096 ∧
    (∀ k : Fin 2048, (base 0x202 0 63 31).fb[k.val] = false) ∧
    (∃ r, r < (5 : Nibble).toNat ∧ (base 0x202 0 63 31).readByte ((base 0x202 0 63 31).i.toNat + r) ≠ 0) ∧
    (∀ r, r < (1 : Nibble).toNat → (base 0x202 0x300 63 31).readByte ((base 0x202 0x300 63 31).i.toNat + r) = 0) ∧
    ((base 0x202 0 63 31).getV 0).toNat = 63 ∧
    ((base 0x202 0 63 31).readByte (base 0x202 0 63 31).i.toNat).getLsbD 6 = true ∧
    (1984 : Fin 2048).val = 64 * (((base 0x202 0 63 31).getV 1).toNat % 32) := by
  refine ⟨by decide, by decide, by decide, fun k => ?_, ⟨0, by decide, by decide⟩, by decide, by decide, by decide, by decide⟩
  simp [base, State.setPc, State.setI, State.setV, State.reset, State.resetWith, Framebuffer.blank]

theorem witness_SkipsOnAKey :
    (0xE19E : Word) &&& 0xF0FF = 0xE09E ∧ (0xE1A1 : Word) &&& 0xF0FF = 0xE0A1 ∧
    (((State.reset.setV 1 15).setKey 15 true).getV 1).toNat = (15 : Nibble).toNat ∧
    ((State.reset.setV 1 15).setKey 15 true).key 15 = true ∧
    (State.reset.getV 1).toNat = (0 : Nibble).toNat ∧ State.reset.key 0 = false ∧
    15 < ((State.reset.setV 1 16).getV 1).toNat := by decide
theorem witness_LdKeyTakesTheLowestKey :
    (0xF50A : Word) &&& 0xF0FF = 0xF00A ∧
    (((State.reset.setKey 9 true).setKey 15 true).key 9 = true ∧
      ∀ j : Nibble, j.toNat < (9 : Nibble).toNat → ((State.reset.setKey 9 true).setKey 15 true).key j = false) ∧
    ((State.reset.setKey 15 true).key 15 = true ∧
      ∀ j : Nibble, j.toNat < (15 : Nibble).toNat → (State.reset.setKey 15 true).key j = false) ∧
    (∀ j : Nibble, (at200 0xF50A).key j = false) ∧ (at200 0xF50A).Running ∧ (at200 0xF50A).FetchInside ∧
    decode (at200 0xF50A).wordAtPc = some (.ldKey 5) := by decide
theorem witness_TimerMoves :
    (0xF307 : Word) &&& 0xF0FF = 0xF007 ∧ (0xF315 : Word) &&& 0xF0FF = 0xF015 ∧ (0xF318 : Word) &&& 0xF0FF = 0xF018 := by
  decide

theorem witness_TickSoundSignalsOnce :
    hostApply .tickSound (State.reset.setST 1) = (State.reset, .sound true) ∧ (State.reset.setST 1).st.toNat = 1 :=
  ⟨rfl, rfl⟩
theorem witness_SetKeyOverwritesOneKey : 15 < 16 ∧ 15 ≤ 15 := by decide
theorem witness_ResetSetsEveryComponent : 80 ≤ 80 ∧ 80 ≤ 4095 := by decide
theorem witness_LoadCopiesTheProgram :
    (3584 < (List.replicate 3585 (0x00 : Byte)).length ∧ (List.replicate 3584 (0x00 : Byte)).length ≤ 3584) ∧
    ([0x12, 0x34] : List Byte)[1]? = some 0x34 :=
  ⟨⟨by rw [List.length_replicate]; decide, by rw [List.length_replicate]⟩, rfl⟩
theorem witness_LoadedProgramRunsFirst :
    (List.replicate 3582 (0x00 : Byte)).length ≤ 3582 ∧ State.reset.Running ∧
    decode (wordOfBytes 0x12 0x34) = some (.jp 0x234) := by
  refine ⟨?_, rfl, by decide⟩
  rw [List.length_replicate]

theorem witness_ComponentsHaveTheirWriters :
    (∃ t, exec (.ldI 0x300) State.reset = .next t ∧ t.i ≠ State.reset.i) ∧
    (∃ t, exec (.call 0x300) State.reset = .next t ∧ t.stack ≠ State.reset.stack ∧ t.sp ≠ State.reset.sp) ∧
    (∃ t, exec (.ldDT 1) (State.reset.setV 1 5) = .next t ∧ t.dt ≠ State.reset.dt) ∧
    (∃ t, exec (.ldST 1) (State.reset.setV 1 5) = .next t ∧ t.st ≠ State.reset.st) ∧
    (∃ t, exec (.storeRegs 0) (base 0x202 0 0xAB 0) = .next t ∧ t.mem ≠ (base 0x202 0 0xAB 0).mem) ∧
    ∃ t, exec (.rnd 0 0xFF) State.reset = .next t ∧ t.draws ≠ State.reset.draws :=
  ⟨⟨_, rfl, by decide⟩, ⟨_, rfl, by decide, by decide⟩, ⟨_, rfl, by decide⟩, ⟨_, rfl, by decide⟩, ⟨_, rfl, by decide⟩,
    _, rfl, by decide⟩
theorem witness_VfHasItsWriters :
    ∃ t, exec (.addReg 0 1) (base 0x202 0 0xFF 0x01) = .next t ∧ t.getV vf ≠ (base 0x202 0 0xFF 0x01).getV vf :=
  ⟨_, rfl, by decide⟩

/-- A running machine with one lit cell whose next word is CLS. -/
def litState : State := (at200 0x00E0).setFb (litAt 0)

theorem witness_FramebufferIsStable :
    (hostApply (.step 0x00) litState).1.fb ≠ litState.fb ∧ (hostApply .reset litState).1.fb ≠ litState.fb ∧
    ∃ t, exec .cls litState = .next t ∧ t.fb ≠ litState.fb := by
  have h : Framebuffer.blank ≠ litAt 0 := fun e => by
    have := congrArg (fun f : Framebuffer => f[0]) e
    simp [litAt, Framebuffer.blank] at this
  exact ⟨h, h, _, rfl, h⟩
theorem witness_NoInstructionReadsST :
    (∃ t, exec (.ldST 1) State.reset = .next t) ∧ (∃ x, Instr.ldST 1 = .ldST x) ∧
    (∃ t, exec (.ldFromDT 1) State.reset = .next t) ∧ ∀ x, Instr.ldFromDT 1 ≠ .ldST x :=
  ⟨⟨_, rfl⟩, ⟨1, rfl⟩, ⟨_, rfl⟩, fun _ h => by cases h⟩

/-- Two machines about to return that differ in the second slot only, which is not used. -/
def deadSlot (a : Word) : State :=
  { at200 0x00EE with sp := 1, stack := (State.reset.stack.set 0 0x402).set 1 a }

theorem witness_DeadSlotsAreUnobservable :
    deadSlot 0x777 = { deadSlot 0x202 with stack := (deadSlot 0x777).stack } ∧ deadSlot 0x777 ≠ deadSlot 0x202 ∧
    (∀ k : Fin 16, k.val < (deadSlot 0x202).sp.val → (deadSlot 0x777).stack[k.val] = (deadSlot 0x202).stack[k.val]) ∧
    ∃ t, step (deadSlot 0x202) = .next t ∧ t.pc = 0x402 := by
  refine ⟨rfl, fun h => ?_, by decide, _, rfl, rfl⟩
  exact absurd (congrArg (fun s : State => s.stack[1]) h) (by decide)

end Sys2Proof.Tests
end

section
/-! What the components of the reset state read as (spec/10_state.md R33), and RESET's obligation. -/

namespace Sys2Proof.Machine

@[simp] theorem State.resetWith_getV (p : Params) (n : Nat) (x : Nibble) : (State.resetWith p n).getV x = 0 :=
  Vector.getElem_replicate x.isLt

@[simp] theorem State.resetWith_key (p : Params) (n : Nat) (k : Nibble) : (State.resetWith p n).key k = false :=
  Vector.getElem_replicate k.isLt

@[simp] theorem State.resetWith_getElem_stack (p : Params) (n : Nat) (k : Fin 16) :
    (State.resetWith p n).stack[k.val] = 0 :=
  Vector.getElem_replicate k.isLt

@[simp] theorem Framebuffer.blank_getElem (k : Fin 2048) : Framebuffer.blank[k.val] = false :=
  Vector.getElem_replicate k.isLt

/-- No address is listed at reset, so each reads as its initial byte (log entry 5). -/
@[simp] theorem State.resetWith_readByte (p : Params) (n a : Nat) : (State.resetWith p n).readByte a = p.initialByte a := rfl

theorem Params.initialByte_of_lt (p : Params) {a : Nat} (h : a < 80) : p.initialByte a = p.glyphTable[a] := dif_pos h

theorem Params.initialByte_of_le (p : Params) {a : Nat} (h : 80 ≤ a) : p.initialByte a = 0 := dif_neg (by omega)

/-- Settles O53: RESET answers `State.resetWith` at the state's own parameters, and each component of that state reads as
R33 says. -/
theorem resetSetsEveryComponent : Obligations.ResetSetsEveryComponent := by
  intro s
  refine ⟨State.resetWith s.params s.draws, rfl, State.resetWith_getV _ _, rfl, rfl,
    State.resetWith_getElem_stack _ _, rfl, rfl, rfl, State.resetWith_key _ _, Framebuffer.blank_getElem, rfl, ?glyphs, ?zeros⟩
  case glyphs =>
    intro a
    rw [State.resetWith_readByte, Params.initialByte_of_lt _ a.isLt]
  case zeros =>
    intro a ha
    rw [State.resetWith_readByte, Params.initialByte_of_le _ ha]

end Sys2Proof.Machine
end

section
/-! What the fetch gives inside memory and how a step takes a fetch fault (spec/30_encoding.md R71), and the fetch's obligation. -/

namespace Sys2Proof.Machine

/-- The fetch gives the word at PC, at any alignment, when both of its bytes are inside memory (R71). -/
theorem fetch_inside {s : State} (h : s.FetchInside) : fetch s = .ok s.wordAtPc := by
  rw [fetch_eq, if_pos h]

/-- A step whose fetch reaches outside memory latches the first address that is outside (R71, R245). -/
theorem step_outside {s : State} {a : Nat} (h : s.Running) (ho : ¬ s.FetchInside)
    (ha : max s.pc.toNat Config.memSize = a) : step s = .next (takeFault (.memoryOutOfBounds a) s) := by
  subst ha
  exact cycle_outside exec h ho

/-- Settles O7: inside memory the fetch is `fetch_inside`; outside, the step is `step_outside`, and the first address
outside is PC itself from 4096 on and 4096 for PC = 0xFFF. -/
theorem fetchReadsTwoBytesOrFaults : Obligations.FetchReadsTwoBytesOrFaults := by
  refine ⟨fun s h => fetch_inside h, fun s hrun => ⟨fun hpc => ?past, fun hpc => ?last⟩⟩
  case past =>
    have ho : ¬ s.FetchInside := Nat.not_lt.mpr (Nat.le_succ_of_le hpc)
    exact step_outside hrun ho (Nat.max_eq_left hpc)
  case last =>
    have ho : ¬ s.FetchInside := by simp [State.FetchInside, hpc, Config.memSize]
    exact step_outside hrun ho (by simp [hpc, Config.memSize])

end Sys2Proof.Machine
end

section
/-! Which words the fixed instructions NOP, CLS and RET have, and which words 5XYn and 9XYn are no instruction
(spec/30_encoding.md R77, R78). -/

namespace Sys2Proof

/-- The masks of the rows that the words 8XYn, EXnn and FXnn select (R77). -/
theorem decode8_mask {x y n : Nibble} {i : Instr} (h : decode8 x y n = some i) : i.row.mask = 0xF00F := by
  unfold decode8 at h
  split at h <;> cases h <;> rfl

theorem decodeE_mask {x : Nibble} {f : Byte} {i : Instr} (h : decodeE x f = some i) : i.row.mask = 0xF0FF := by
  unfold decodeE at h
  split at h <;> cases h <;> rfl

theorem decodeF_mask {x : Nibble} {f : Byte} {i : Instr} (h : decodeF x f = some i) : i.row.mask = 0xF0FF := by
  unfold decodeF at h
  split at h <;> cases h <;> rfl

/-- A word whose major nibble is not 0 decodes to no instruction of a fixed word: every row it can select leaves
operand bits out of its mask (R77). -/
theorem decodeNibbles_mask_ne {a b c d : Nibble} {i : Instr} (ha : a ≠ 0x0)
    (h : decodeNibbles a b c d = some i) : i.row.mask ≠ 0xFFFF := by
  unfold decodeNibbles at h
  split at h
  case h_1 => exact absurd rfl ha
  case h_6 | h_10 =>
    split at h <;> cases h
    exact (by decide : (0xF00F : Word) ≠ 0xFFFF)
  case h_9 => rw [decode8_mask h]; decide
  case h_15 => rw [decodeE_mask h]; decide
  case h_16 => rw [decodeF_mask h]; decide
  all_goals cases h
  all_goals exact (by decide : (0xF000 : Word) ≠ 0xFFFF)

/-- The words 0NNN that are instructions are their rows' patterns (R77 rows 1-3). -/
theorem decodeF0_pattern {b c d : Nibble} {i : Instr} (h : decodeF0 b c d = some i) :
    wordOf 0x0 b c d = i.row.pattern := by
  unfold decodeF0 at h
  split_ifs at h with hnop hcls hret
  · obtain ⟨rfl, rfl, rfl⟩ := hnop; cases h; rfl
  · obtain ⟨rfl, rfl, rfl⟩ := hcls; cases h; rfl
  · obtain ⟨rfl, rfl, rfl⟩ := hret; cases h; rfl

/-- A word that decodes to an instruction of a fixed word is that word (R77). -/
theorem eq_pattern_of_decode {w : Word} {i : Instr} (hi : i.row.mask = 0xFFFF) (h : decode w = some i) :
    w = i.row.pattern := by
  by_cases h1 : nibble1 w = 0x0
  · rw [← wordOf_nibbles w, h1]
    rw [decode, h1] at h
    exact decodeF0_pattern h
  · exact absurd hi (decodeNibbles_mask_ne h1 h)

/-- A word AND 0x000F is its last nibble. -/
theorem and_000F (w : Word) : w &&& 0x000F = wordOf 0 0 0 (nibble4 w) := by
  have h := wordOf_and (nibble1 w) (nibble2 w) (nibble3 w) (nibble4 w) 0 0 0 0xF
  rwa [wordOf_nibbles, nibble_and_0, nibble_and_0, nibble_and_0, nibble_and_F] at h

/-- The words 5XYn and 9XYn with n not 0 select no row (R78, R106, R107). -/
theorem decode_skipReg_illegal {w : Word} (h1 : nibble1 w = 0x5 ∨ nibble1 w = 0x9) (h4 : nibble4 w ≠ 0x0) :
    decode w = none := by
  obtain h1 | h1 := h1
  · rw [decode, h1]; exact if_neg h4
  · rw [decode, h1]; exact if_neg h4

end Sys2Proof
end

section
/-! What the control-flow instructions answer on the post-fetch state, once per instruction and case
(spec/40_control_flow.md), and what their operands and the call stack read as. -/

namespace Sys2Proof.Machine

@[simp] theorem zextAddr_toNat (nnn : Addr) : (zextAddr nnn).toNat = nnn.toNat := by
  simp only [zextAddr, BitVec.toNat_setWidth]
  omega

@[simp] theorem zextByte_toNat (b : Byte) : (zextByte b).toNat = b.toNat := by
  simp only [zextByte, BitVec.toNat_setWidth]
  omega

/-- The sum of BNNN stays below 2^16, so it is not reduced (R108). -/
theorem zextAddr_add_zextByte_toNat (nnn : Addr) (b : Byte) :
    (zextAddr nnn + zextByte b).toNat = nnn.toNat + b.toNat := by
  rw [BitVec.toNat_add, zextAddr_toNat, zextByte_toNat]
  omega

theorem jumpOffset_v0 {s : State} (h : s.params.jumpOffsetReg = .v0) (nnn : Addr) :
    jumpOffset s nnn = s.getV 0x0 := by
  simp only [jumpOffset, h]

theorem jumpOffset_vx {s : State} (h : s.params.jumpOffsetReg = .vx) (nnn : Addr) :
    jumpOffset s nnn = s.getV (nnn.extractLsb' 8 4) := by
  simp only [jumpOffset, h]
  rfl

/-- What every slot of the call stack reads as after a push (R25, R101). -/
theorem State.getElem_stack_push (s : State) (r : Word) (h : s.sp.val < 16) (j : Fin 16) :
    (s.push r h).stack[j.val] = if s.sp.val = j.val then r else s.stack[j.val] := by
  simp only [State.push_stack, Vector.getElem_set]

theorem exec_call_of_lt (nnn : Addr) {s : State} (h : s.sp.val < 16) :
    exec (.call nnn) s = .next ((s.push s.pc h).setPc (zextAddr nnn)) := dif_pos h

theorem exec_call_full (nnn : Addr) {s : State} (h : s.sp = 16) :
    exec (.call nnn) s = raiseFault (.stackOverflow s.fetchPc) s := dif_neg (by simp [h])

theorem exec_ret_of_pos {s : State} (h : 0 < s.sp.val) : exec .ret s = .next (s.popPc h) := dif_pos h

theorem exec_ret_empty {s : State} (h : s.sp = 0) :
    exec .ret s = raiseFault (.stackUnderflow s.fetchPc) s := dif_neg (by simp [h])

theorem exec_seImm (x : Nibble) (nn : Byte) (s : State) :
    exec (.seImm x nn) s = .next (s.skipIf (s.getV x == nn)) := rfl

theorem exec_sneImm (x : Nibble) (nn : Byte) (s : State) :
    exec (.sneImm x nn) s = .next (s.skipIf (s.getV x != nn)) := rfl

theorem exec_seReg (x y : Nibble) (s : State) :
    exec (.seReg x y) s = .next (s.skipIf (s.getV x == s.getV y)) := rfl

theorem exec_sneReg (x y : Nibble) (s : State) :
    exec (.sneReg x y) s = .next (s.skipIf (s.getV x != s.getV y)) := rfl

/-- A register that holds the index of a key gives access to that key (R220). -/
theorem withKey_of_toNat_eq {x k : Nibble} {s : State} (h : (s.getV x).toNat = k.toNat) (body : Nibble → State) :
    withKey x s body = .next (body k) := by
  have hle : ¬ 15 < (s.getV x).toNat := by omega
  have hk : (s.getV x).setWidth 4 = k := BitVec.eq_of_toNat_eq (by rw [BitVec.toNat_setWidth, h, Nat.mod_eq_of_lt k.isLt])
  rw [withKey_eq, if_neg hle, hk]

theorem exec_skp {x k : Nibble} {s : State} (h : (s.getV x).toNat = k.toNat) :
    exec (.skp x) s = .next (s.skipIf (s.key k)) := withKey_of_toNat_eq h fun k => s.skipIf (s.key k)

theorem exec_sknp {x k : Nibble} {s : State} (h : (s.getV x).toNat = k.toNat) :
    exec (.sknp x) s = .next (s.skipIf (!s.key k)) := withKey_of_toNat_eq h fun k => s.skipIf (!s.key k)

/-- A skip on equal bytes and the skip on unequal ones, in both cases: PC 2 further or the state unchanged (R103). -/
theorem State.skipIf_comparison (s : State) (a b : Byte) :
    (a = b → s.skipIf (a == b) = { s with pc := s.pc + 2 } ∧ s.skipIf (a != b) = s) ∧
    (a ≠ b → s.skipIf (a == b) = s ∧ s.skipIf (a != b) = { s with pc := s.pc + 2 }) := by
  constructor
  · rintro rfl
    rw [beq_self_eq_true, bne_self_eq_false]
    exact ⟨rfl, rfl⟩
  · intro h
    rw [beq_eq_false_iff_ne.2 h, bne_iff_ne.2 h]
    exact ⟨rfl, rfl⟩

/-- A step whose instruction skips moves PC 4 on: 2 by the fetch and 2 by the skip (R72, R103). -/
theorem step_of_exec_skips {s : State} {i : Instr} (hrun : s.Running) (hin : s.FetchInside)
    (hdec : decode s.wordAtPc = some i)
    (hskip : exec i (s.setPc (s.pc + 2)) = .next ((s.setPc (s.pc + 2)).skipIf true)) :
    step s = .next { s with pc := s.pc + 4 } := by
  have hpc : s.pc + 2 + 2 = s.pc + 4 := BitVec.add_assoc ..
  calc step s = exec i (s.setPc (s.pc + 2)) := cycle_runs exec hrun hin hdec
    _ = .next { s with pc := s.pc + 2 + 2 } := hskip
    _ = .next { s with pc := s.pc + 4 } := by rw [hpc]

end Sys2Proof.Machine
end

section
/-! The obligations of control flow (spec/40_control_flow.md), assembled from the decoding of each word and the answers of
`exec` above. -/

namespace Sys2Proof.Machine

/-- Settles O24: each of the six true conditions makes its instruction's `skipIf` skip, and `step_of_exec_skips` asks
nothing about what follows the instruction. -/
theorem skipPassesOneInstruction : Obligations.SkipPassesOneInstruction := by
  intro s i hrun hin hdec hcond
  refine step_of_exec_skips hrun hin hdec ?_
  obtain ⟨x, nn, rfl, h⟩ | ⟨x, nn, rfl, h⟩ | ⟨x, y, rfl, h⟩ | ⟨x, y, rfl, h⟩ | ⟨x, k, rfl, hk, h⟩ |
    ⟨x, k, rfl, hk, h⟩ := hcond
  · rw [exec_seImm, State.getV_setPc, beq_iff_eq.2 h]
  · rw [exec_sneImm, State.getV_setPc, bne_iff_ne.2 h]
  · rw [exec_seReg, State.getV_setPc, State.getV_setPc, beq_iff_eq.2 h]
  · rw [exec_sneReg, State.getV_setPc, State.getV_setPc, bne_iff_ne.2 h]
  · rw [exec_skp (s := s.setPc (s.pc + 2)) hk, State.key_setPc, h]
  · rw [exec_sknp (s := s.setPc (s.pc + 2)) hk, State.key_setPc, h, Bool.not_false]

/-- Settles O16: only the fixed word of its row decodes to NOP. -/
theorem nopDoesNothing : Obligations.NopDoesNothing :=
  ⟨fun _ => ⟨eq_pattern_of_decode rfl, fun h => h ▸ rfl⟩, fun _ => rfl⟩

/-- Settles O17: the word is of format FA, and the zero-extended address keeps its value. -/
theorem jpSetsPc : Obligations.JpSetsPc :=
  ⟨fun _ h => decode_FA (p := 0x1) (fun _ _ _ => rfl) h,
    fun nnn s => ⟨s.setPc (zextAddr nnn), rfl, zextAddr_toNat nnn, rfl⟩⟩

/-- Settles O18: the push writes slot SP alone, and a full stack raises at the CALL's own address. -/
theorem callPushesAndJumps : Obligations.CallPushesAndJumps := by
  refine ⟨fun _ h => decode_FA (p := 0x2) (fun _ _ _ => rfl) h, fun nnn s k hk => ?pushes, fun nnn s h => ?full⟩
  case pushes =>
    have hlt : s.sp.val < 16 := hk ▸ k.isLt
    refine ⟨_, exec_call_of_lt nnn hlt, ?_, fun j hj => ?_, rfl, zextAddr_toNat nnn, rfl⟩
    · rw [State.setPc_stack, State.getElem_stack_push, if_pos hk]
    · have hne : s.sp.val ≠ j.val := fun e => hj (Fin.ext (e.symm.trans hk))
      rw [State.setPc_stack, State.getElem_stack_push, if_neg hne]
  case full => exact (exec_call_full nnn h).trans (raiseFault_eq _ s)

/-- Settles O19: the pop reads slot SP - 1 and writes no slot, and an empty stack raises at the RET's own address. -/
theorem retPopsPc : Obligations.RetPopsPc := by
  refine ⟨fun _ => ⟨eq_pattern_of_decode rfl, fun h => h ▸ rfl⟩, fun s k hk => ?pops, fun s h => ?empty⟩
  case pops =>
    have hsub : s.sp.val - 1 = k.val := by omega
    refine ⟨_, exec_ret_of_pos (by omega), hsub, ?_, rfl⟩
    simp only [State.popPc_pc, hsub]
  case empty => exact (exec_ret_empty h).trans (raiseFault_eq _ s)

/-- Settles O21: the sum is `zextAddr_add_zextByte_toNat`, its register the parameter's. -/
theorem jpV0AddsTheOffsetRegister : Obligations.JpV0AddsTheOffsetRegister := by
  refine ⟨fun _ h => decode_FA (p := 0xB) (fun _ _ _ => rfl) h, fun nnn s => ?_⟩
  have hsum := zextAddr_add_zextByte_toNat nnn (jumpOffset s nnn)
  refine ⟨s.setPc (zextAddr nnn + zextByte (jumpOffset s nnn)), rfl, fun hv0 => ?_, fun hvx => ?_, rfl⟩
  · rwa [jumpOffset_v0 hv0] at hsum ⊢
  · rwa [jumpOffset_vx hvx] at hsum ⊢

/-- Settles O22 by `State.skipIf_comparison`. -/
theorem skipsOnAByte : Obligations.SkipsOnAByte := by
  refine ⟨fun _ h => decode_FXB (p := 0x3) (fun _ _ _ => rfl) h,
    fun _ h => decode_FXB (p := 0x4) (fun _ _ _ => rfl) h, fun x nn s => ?_⟩
  simpa only [exec_seImm, exec_sneImm, Host.Outcome.next.injEq] using s.skipIf_comparison (s.getV x) nn

/-- Settles O23 by `State.skipIf_comparison`; the illegal words are those of `decode_skipReg_illegal`. -/
theorem skipsOnTwoRegisters : Obligations.SkipsOnTwoRegisters := by
  refine ⟨fun _ h => decode_FXY (p := 0x5) (q := 0x0) (fun _ _ => rfl) h,
    fun _ h => decode_FXY (p := 0x9) (q := 0x0) (fun _ _ => rfl) h, fun w h1 hn => ?illegal, fun x y s => ?skips⟩
  case illegal =>
    have h4 : nibble4 w ≠ 0x0 := fun e => hn (by rw [and_000F, e]; rfl)
    exact decode_skipReg_illegal (h1.imp (and_F000 w 0x5).1 (and_F000 w 0x9).1) h4
  case skips =>
    simpa only [exec_seReg, exec_sneReg, Host.Outcome.next.injEq] using s.skipIf_comparison (s.getV x) (s.getV y)

end Sys2Proof.Machine
end

section
/-! What the register and arithmetic instructions answer on the post-fetch state (spec/41_register_alu.md), what an answer
of each kind does to every register, and the numbers their results and flags stand for. -/

namespace Sys2Proof.Machine

theorem exec_ldImm (x : Nibble) (nn : Byte) (s : State) : exec (.ldImm x nn) s = .next (s.setV x nn) := rfl

theorem exec_ldReg (x y : Nibble) (s : State) : exec (.ldReg x y) s = .next (s.setV x (s.getV y)) := rfl

theorem exec_addImm (x : Nibble) (nn : Byte) (s : State) :
    exec (.addImm x nn) s = .next (s.setV x (s.getV x + nn)) := rfl

theorem exec_orReg (x y : Nibble) (s : State) :
    exec (.orReg x y) s = .next (writeLogic x (s.getV x ||| s.getV y) s) := rfl

theorem exec_andReg (x y : Nibble) (s : State) :
    exec (.andReg x y) s = .next (writeLogic x (s.getV x &&& s.getV y) s) := rfl

theorem exec_xorReg (x y : Nibble) (s : State) :
    exec (.xorReg x y) s = .next (writeLogic x (s.getV x ^^^ s.getV y) s) := rfl

theorem exec_addReg (x y : Nibble) (s : State) :
    exec (.addReg x y) s =
      .next (writeResultFlag x (s.getV x + s.getV y) (carry (s.getV x) (s.getV y)) s) := rfl

theorem exec_subReg (x y : Nibble) (s : State) :
    exec (.subReg x y) s =
      .next (writeResultFlag x (s.getV x - s.getV y) (notBorrow (s.getV x) (s.getV y)) s) := rfl

theorem exec_subnReg (x y : Nibble) (s : State) :
    exec (.subnReg x y) s =
      .next (writeResultFlag x (s.getV y - s.getV x) (notBorrow (s.getV y) (s.getV x)) s) := rfl

theorem exec_shr (x : Nibble) (s : State) :
    exec (.shr x) s = .next (writeResultFlag x (s.getV x >>> 1) (shiftedOutRight (s.getV x)) s) := rfl

theorem exec_shl (x : Nibble) (s : State) :
    exec (.shl x) s = .next (writeResultFlag x (s.getV x <<< 1) (shiftedOutLeft (s.getV x)) s) := rfl

/-- An answer that writes one register, by what every register reads as (R9). -/
theorem exec_writes_register {i : Instr} {s : State} {x : Nibble} {b : Byte} (h : exec i s = .next (s.setV x b)) :
    ∃ t, exec i s = .next t ∧ (∀ z, t.getV z = if z = x then b else s.getV z) ∧ t = { s with v := t.v } :=
  ⟨_, h, fun z => State.getV_setV s x z b, rfl⟩

/-- An answer that writes a logic result, by what every register reads as (R134). -/
theorem exec_writes_logic {i : Instr} {s : State} {x : Nibble} {r : Byte} (h : exec i s = .next (writeLogic x r s)) :
    ∃ t, exec i s = .next t ∧ t = { s with v := t.v } ∧ ∀ z,
      t.getV z = if s.params.logicVfReset = true ∧ z = vf then 0 else if z = x then r else s.getV z :=
  ⟨_, h, writeLogic_only_v s x r, fun z => State.getV_writeLogic s x z r⟩

/-- An answer that writes a result of value `n` and its flag: VF holds the flag even when x is F, and no third register
changes (R138). -/
theorem exec_writes_result_flag {i : Instr} {s : State} {x : Nibble} {r flag : Byte} {c : Bool} {n : Nat}
    (h : exec i s = .next (writeResultFlag x r c s)) (hflag : flagByte c = flag) (hresult : r.toNat = n) :
    ∃ t, exec i s = .next t ∧ t.getV vf = flag ∧ (x ≠ vf → (t.getV x).toNat = n) ∧
      (∀ z, z ≠ x → z ≠ vf → t.getV z = s.getV z) ∧ t = { s with v := t.v } := by
  refine ⟨_, h, ?_, fun hx => ?_, fun z hzx hzf => ?_, writeResultFlag_only_v s x r c⟩
  · rw [State.getV_writeResultFlag, if_pos rfl, hflag]
  · rw [State.getV_writeResultFlag, if_neg hx, if_pos rfl, hresult]
  · rw [State.getV_writeResultFlag, if_neg hzf, if_neg hzx]

theorem flagByte_decide (p : Prop) [Decidable p] : flagByte (decide p) = if p then 1 else 0 := by
  simp only [flagByte, decide_eq_true_eq]

theorem flagByte_carry (a b : Byte) : flagByte (carry a b) = if 255 < a.toNat + b.toNat then 1 else 0 :=
  flagByte_decide _

theorem flagByte_notBorrow (a b : Byte) : flagByte (notBorrow a b) = if b.toNat ≤ a.toNat then 1 else 0 :=
  flagByte_decide _

/-- The flag that holds one bit of a byte is that bit of its value. -/
theorem flagByte_getLsbD_toNat (a : Byte) (k : Nat) : (flagByte (a.getLsbD k)).toNat = a.toNat / 2 ^ k % 2 := by
  have hbool (c : Bool) : (flagByte c).toNat = c.toNat := by cases c <;> rfl
  rw [hbool, BitVec.getLsbD, Nat.toNat_testBit]

theorem flagByte_shiftedOutRight_toNat (a : Byte) : (flagByte (shiftedOutRight a)).toNat = a.toNat % 2 := by
  rw [shiftedOutRight, flagByte_getLsbD_toNat, Nat.pow_zero, Nat.div_one]

theorem flagByte_shiftedOutLeft_toNat (a : Byte) : (flagByte (shiftedOutLeft a)).toNat = a.toNat / 128 := by
  rw [shiftedOutLeft, flagByte_getLsbD_toNat]
  omega

/-- The difference of two bytes is taken modulo 256 (R130). -/
theorem toNat_sub_byte (a b : Byte) : (a - b).toNat = (256 + a.toNat - b.toNat) % 256 := by
  rw [BitVec.toNat_sub]
  omega

theorem toNat_shiftRight_one (a : Byte) : (a >>> 1).toNat = a.toNat / 2 := by
  rw [BitVec.toNat_ushiftRight, Nat.shiftRight_one]

theorem toNat_shiftLeft_one (a : Byte) : (a <<< 1).toNat = 2 * a.toNat % 256 := by
  rw [BitVec.toNat_shiftLeft, Nat.shiftLeft_eq, Nat.pow_one, Nat.mul_comm]

end Sys2Proof.Machine
end

section
/-! The obligations of the registers and the arithmetic (spec/41_register_alu.md), assembled from the decoding of each word
and the kinds of answer above. -/

namespace Sys2Proof.Machine

/-- Settles O25: both loads answer one register write. -/
theorem loadsWriteOneRegister : Obligations.LoadsWriteOneRegister :=
  ⟨fun _ h => decode_FXB (p := 0x6) (fun _ _ _ => rfl) h,
    fun _ h => decode_FXY (p := 0x8) (q := 0x0) (fun _ _ => rfl) h,
    fun x nn s => exec_writes_register (exec_ldImm x nn s),
    fun x y s => exec_writes_register (exec_ldReg x y s)⟩

/-- Settles O26: the sum is a byte's, and it is the only register written. -/
theorem addByteWrapsWithoutFlag : Obligations.AddByteWrapsWithoutFlag := by
  refine ⟨fun _ h => decode_FXB (p := 0x7) (fun _ _ _ => rfl) h, fun x nn s => ?_⟩
  obtain ⟨t, hexec, hread, honly⟩ := exec_writes_register (exec_addImm x nn s)
  refine ⟨t, hexec, ?_, fun z hz => (hread z).trans (if_neg hz), honly⟩
  rw [hread, if_pos rfl, BitVec.toNat_add]

/-- Settles O27: the three instructions write their results by `writeLogic`, under either value of the parameter. -/
theorem logicWritesTheResult : Obligations.LogicWritesTheResult :=
  ⟨fun _ h => decode_FXY (p := 0x8) (q := 0x1) (fun _ _ => rfl) h,
    fun _ h => decode_FXY (p := 0x8) (q := 0x2) (fun _ _ => rfl) h,
    fun _ h => decode_FXY (p := 0x8) (q := 0x3) (fun _ _ => rfl) h,
    fun x y s => ⟨exec_writes_logic (exec_orReg x y s), exec_writes_logic (exec_andReg x y s),
      exec_writes_logic (exec_xorReg x y s)⟩⟩

/-- Settles O28: the flag is the carry, the result a byte's sum. -/
theorem addSetsTheCarry : Obligations.AddSetsTheCarry :=
  ⟨fun _ h => decode_FXY (p := 0x8) (q := 0x4) (fun _ _ => rfl) h,
    fun x y s => exec_writes_result_flag (exec_addReg x y s) (flagByte_carry _ _) (BitVec.toNat_add _ _)⟩

/-- Settles O29: the flag is the not-borrow of `Vx - Vy`, the result that difference. -/
theorem subSetsTheNotBorrow : Obligations.SubSetsTheNotBorrow :=
  ⟨fun _ h => decode_FXY (p := 0x8) (q := 0x5) (fun _ _ => rfl) h,
    fun x y s => exec_writes_result_flag (exec_subReg x y s) (flagByte_notBorrow _ _) (toNat_sub_byte _ _)⟩

/-- Settles O30: the flag is the not-borrow of `Vy - Vx`, the result that difference. -/
theorem subnSetsTheNotBorrow : Obligations.SubnSetsTheNotBorrow :=
  ⟨fun _ h => decode_FXY (p := 0x8) (q := 0x7) (fun _ _ => rfl) h,
    fun x y s => exec_writes_result_flag (exec_subnReg x y s) (flagByte_notBorrow _ _) (toNat_sub_byte _ _)⟩

/-- Settles O31: the word's y nibble is no operand, and the flag is the lowest bit. -/
theorem shrMovesTheLowBitOut : Obligations.ShrMovesTheLowBitOut := by
  refine ⟨fun _ h => decode_FXY (p := 0x8) (q := 0x6) (f := fun x _ => .shr x) (fun _ _ => rfl) h, fun x s => ?_⟩
  obtain ⟨t, hexec, hflag, hrest⟩ := exec_writes_result_flag (exec_shr x s) rfl (toNat_shiftRight_one _)
  exact ⟨t, hexec, hflag ▸ flagByte_shiftedOutRight_toNat _, hrest⟩

/-- Settles O32: the word's y nibble is no operand, and the flag is the highest bit. -/
theorem shlMovesTheHighBitOut : Obligations.ShlMovesTheHighBitOut := by
  refine ⟨fun _ h => decode_FXY (p := 0x8) (q := 0xE) (f := fun x _ => .shl x) (fun _ _ => rfl) h, fun x s => ?_⟩
  obtain ⟨t, hexec, hflag, hrest⟩ := exec_writes_result_flag (exec_shl x s) rfl (toNat_shiftLeft_one _)
  exact ⟨t, hexec, hflag ▸ flagByte_shiftedOutLeft_toNat _, hrest⟩

end Sys2Proof.Machine
end

section
/-! What the address-register and memory instructions answer on the post-fetch state (spec/42_index_memory.md): the values
I takes, the fault of a block that ends outside memory, and what bytes and registers read as after a block access. -/

namespace Sys2Proof.Machine

/-! The values of I -/

/-- An answer that sets I, by the value of I (R23). -/
theorem exec_sets_index {i : Instr} {s : State} {a : Word} {n : Nat} (h : exec i s = .next (s.setI a))
    (ha : a.toNat = n) : ∃ t, exec i s = .next t ∧ t.i.toNat = n ∧ t = { s with i := t.i } :=
  ⟨s.setI a, h, ha, rfl⟩

theorem exec_ldI (nnn : Addr) (s : State) : exec (.ldI nnn) s = .next (s.setI (zextAddr nnn)) := rfl

theorem exec_addI (x : Nibble) (s : State) : exec (.addI x) s = .next (s.setI (s.i + zextByte (s.getV x))) := rfl

theorem exec_ldF (x : Nibble) (s : State) : exec (.ldF x) s = .next (s.setI (glyphAddress (fontDigit s x))) := rfl

theorem add_zextByte_toNat (a : Word) (b : Byte) : (a + zextByte b).toNat = (a.toNat + b.toNat) % 65536 := by
  rw [BitVec.toNat_add, zextByte_toNat]

/-- Five times a byte stays below 2^16, so the glyph address is not reduced (R172). -/
theorem glyphAddress_toNat (d : Byte) : (glyphAddress d).toNat = d.toNat * 5 := by
  have h5 : (5 : Word).toNat = 5 := rfl
  rw [glyphAddress, BitVec.toNat_mul, zextByte_toNat, h5]
  omega

theorem fontDigit_unmasked {s : State} (h : s.params.fontDigitMask = false) (x : Nibble) :
    fontDigit s x = s.getV x := by
  simp only [fontDigit, h, Bool.false_eq_true, if_false]

theorem fontDigit_masked_toNat {s : State} (h : s.params.fontDigitMask = true) (x : Nibble) :
    (fontDigit s x).toNat = (s.getV x).toNat % 16 := by
  simp only [fontDigit, h, if_true, BitVec.toNat_and]
  exact Nat.and_two_pow_sub_one_eq_mod _ 4

/-! The block accesses -/

theorem withBlock_inside {n : Nat} {s : State} (h : n = 0 ∨ s.i.toNat + n ≤ Config.memSize) (body : State) :
    withBlock n s body = .next body := by
  rw [withBlock_eq, if_pos h]

theorem withBlock_outside {n : Nat} {s : State} (h : max s.i.toNat Config.memSize < s.i.toNat + n) (body : State) :
    withBlock n s body = raiseFault (.memoryOutOfBounds (max s.i.toNat Config.memSize)) s := by
  rw [withBlock_eq, if_neg (by omega)]

/-- Each block instruction answers a block access of its length, whose body leaves I, PC and the latch as they were
(R173). -/
theorem exec_eq_withBlock {i : Instr} {n : Nat} (hb : BlockOf i n) (s : State) :
    ∃ body, exec i s = withBlock n s body ∧ body.i = s.i ∧ body.pc = s.pc ∧ body.fault = s.fault := by
  obtain ⟨x, rfl, rfl⟩ | ⟨x, rfl, rfl⟩ | ⟨x, rfl, rfl⟩ | ⟨x, y, m, rfl, rfl⟩ := hb
  · exact ⟨_, rfl, by rw [State.writeBytes_eq]; exact ⟨rfl, rfl, rfl⟩⟩
  · exact ⟨_, rfl, by rw [State.writeBytes_eq]; exact ⟨rfl, rfl, rfl⟩⟩
  · exact ⟨_, rfl, by rw [loadRegBlock_only_v]; exact ⟨rfl, rfl, rfl⟩⟩
  · exact ⟨_, rfl, rfl, rfl, rfl⟩

/-- A block instruction whose block ends outside memory raises its fault and has written nothing (R173, R246). -/
theorem exec_block_outside {i : Instr} {n : Nat} {s : State} (hb : BlockOf i n)
    (h : max s.i.toNat 4096 < s.i.toNat + n) :
    exec i s = .next { s with pc := s.pc - 2, fault := some (.memoryOutOfBounds (max s.i.toNat 4096)) } := by
  obtain ⟨body, hexec, -⟩ := exec_eq_withBlock hb s
  exact hexec.trans (withBlock_outside h body)

theorem exec_ldB_inside (x : Nibble) {s : State} (h : s.i.toNat + 3 ≤ Config.memSize) :
    exec (.ldB x) s = .next (s.writeBytes s.i.toNat (bcdBytes (s.getV x))) :=
  withBlock_inside (.inr h) _

theorem exec_storeRegs_inside (x : Nibble) {s : State} (h : s.i.toNat + (x.toNat + 1) ≤ Config.memSize) :
    exec (.storeRegs x) s = .next (s.writeBytes s.i.toNat (regBlock s x)) :=
  withBlock_inside (.inr h) _

theorem exec_loadRegs_inside (x : Nibble) {s : State} (h : s.i.toNat + (x.toNat + 1) ≤ Config.memSize) :
    exec (.loadRegs x) s = .next (loadRegBlock s 0 (s.readBytes s.i.toNat (blockLen x))) :=
  withBlock_inside (.inr h) _

/-- An answer that writes a block of bytes at I, by what every byte reads as: the block's by position, the old ones
outside it. -/
theorem exec_writes_block {i : Instr} {s : State} {bs : List Byte} (h : exec i s = .next (s.writeBytes s.i.toNat bs)) :
    ∃ t, exec i s = .next t ∧ (∀ k (hk : k < bs.length), t.readByte (s.i.toNat + k) = bs[k]) ∧
      (∀ a, a < s.i.toNat ∨ s.i.toNat + bs.length ≤ a → t.readByte a = s.readByte a) ∧ t = { s with mem := t.mem } := by
  refine ⟨_, h, fun k hk => ?inside, fun a ha => ?outside, State.writeBytes_eq ..⟩
  case inside =>
    have hin : s.i.toNat ≤ s.i.toNat + k ∧ s.i.toNat + k - s.i.toNat < bs.length := by omega
    rw [State.readByte_writeBytes, dif_pos hin]
    simp only [Nat.add_sub_cancel_left]
  case outside =>
    rw [State.readByte_writeBytes, dif_neg (by omega)]

/-- The three digits of a byte are bytes of those values (R174). -/
theorem bcdBytes_eq_digits (b : Byte) : ∃ hundreds tens ones : Byte, bcdBytes b = [hundreds, tens, ones] ∧
    hundreds.toNat = b.toNat / 100 ∧ tens.toNat = b.toNat / 10 % 10 ∧ ones.toNat = b.toNat % 10 := by
  have hb := b.isLt
  refine ⟨_, _, _, rfl, ?_, ?_, ?_⟩ <;> rw [BitVec.toNat_ofNat] <;> omega

/-- The block `V0..Vx` at the position of a register of it (R178). -/
theorem getElem_regBlock_toNat (s : State) (x z : Nibble) (h : z.toNat < (regBlock s x).length) :
    (regBlock s x)[z.toNat] = s.getV z := by
  rw [getElem_regBlock, BitVec.ofNat_toNat, BitVec.setWidth_eq]

/-- Every register after the block `V0..Vx` is loaded from address `a` on (R179). -/
theorem getV_loadRegBlock_readBytes (s : State) (x z : Nibble) (a : Nat) :
    (loadRegBlock s 0 (s.readBytes a (blockLen x))).getV z =
      if z.toNat ≤ x.toNat then s.readByte (a + z.toNat) else s.getV z := by
  have hlen : (s.readBytes a (blockLen x)).length = x.toNat + 1 := State.readBytes_length ..
  rw [getV_loadRegBlock _ _ _ _ (by omega)]
  by_cases hz : z.toNat ≤ x.toNat
  · rw [dif_pos (by omega), if_pos hz, State.getElem_readBytes, Nat.sub_zero]
  · rw [dif_neg (by omega), if_neg hz]

end Sys2Proof.Machine
end

section
/-! The obligations of the address register and memory (spec/42_index_memory.md), assembled from the decoding of each word
and the kinds of answer above. -/

namespace Sys2Proof.Machine

/-- Settles O38: the lowest address of the block at or above 4096 is the larger of I and 4096, and a block none of whose
addresses is outside is empty or ends inside. -/
theorem blockAccessesCheckFirst : Obligations.BlockAccessesCheckFirst := by
  intro i n s hb
  refine ⟨fun k hk hout hlow => ?outside, fun hall => ?inside⟩
  case outside =>
    have hmax : max s.i.toNat 4096 = s.i.toNat + k := by
      cases k with
      | zero => exact Nat.max_eq_left hout
      | succ j =>
        have := hlow j (Nat.lt_succ_self j)
        omega
    rw [exec_block_outside hb (by omega), hmax]
  case inside =>
    have hin : n = 0 ∨ s.i.toNat + n ≤ Config.memSize := by
      cases n with
      | zero => exact .inl rfl
      | succ j => exact .inr (hall j (Nat.lt_succ_self j))
    obtain ⟨body, hexec, hkeeps⟩ := exec_eq_withBlock hb s
    exact ⟨body, hexec.trans (withBlock_inside hin body), hkeeps⟩

/-- Settles O39: the block of three bytes holds the decimal digits. -/
theorem ldBWritesDecimalDigits : Obligations.LdBWritesDecimalDigits := by
  refine ⟨fun _ h => decode_FXF (p := 0xF) (q := 0x3) (r := 0x3) (fun _ => rfl) h,
    fun x s => ⟨fun h => ?inside, fun h => ?outside⟩⟩
  case inside =>
    obtain ⟨_, _, _, hdigits, hhundreds, htens, hones⟩ := bcdBytes_eq_digits (s.getV x)
    obtain ⟨t, hexec, hblock, hother, honly⟩ := exec_writes_block (hdigits ▸ exec_ldB_inside x h)
    exact ⟨t, hexec, (congrArg BitVec.toNat (hblock 0 (by simp))).trans hhundreds,
      (congrArg BitVec.toNat (hblock 1 (by simp))).trans htens,
      (congrArg BitVec.toNat (hblock 2 (by simp))).trans hones, hother, honly⟩
  case outside => exact exec_block_outside (.inl ⟨x, rfl, rfl⟩) (by omega)

/-- Settles O40: the block holds the registers by position. -/
theorem storeRegsWritesTheBlock : Obligations.StoreRegsWritesTheBlock := by
  refine ⟨fun _ h => decode_FXF (p := 0xF) (q := 0x5) (r := 0x5) (fun _ => rfl) h,
    fun x s => ⟨fun h => ?inside, fun h => ?outside⟩⟩
  case inside =>
    obtain ⟨t, hexec, hblock, hother, honly⟩ := exec_writes_block (exec_storeRegs_inside x h)
    have hlen := regBlock_length s x
    refine ⟨t, hexec, fun z hz => ?_, fun a ha => hother a (by omega), honly⟩
    rw [hblock z.toNat (by omega), getElem_regBlock_toNat]
  case outside => exact exec_block_outside (.inr (.inl ⟨x, rfl, rfl⟩)) (by omega)

/-- Settles O41: the registers loaded are those of the block by position, and no other component changes. -/
theorem loadRegsReadsTheBlock : Obligations.LoadRegsReadsTheBlock := by
  refine ⟨fun _ h => decode_FXF (p := 0xF) (q := 0x6) (r := 0x5) (fun _ => rfl) h,
    fun x s => ⟨fun h => ?inside, fun h => ?outside⟩⟩
  case inside =>
    exact ⟨_, exec_loadRegs_inside x h, fun z => getV_loadRegBlock_readBytes s x z _, loadRegBlock_only_v ..⟩
  case outside => exact exec_block_outside (.inr (.inr (.inl ⟨x, rfl, rfl⟩))) (by omega)

/-- Settles O34: the word is of format FA, and the zero-extended address keeps its value. -/
theorem ldISetsI : Obligations.LdISetsI :=
  ⟨fun _ h => decode_FA (p := 0xA) (fun _ _ _ => rfl) h,
    fun nnn s => exec_sets_index (exec_ldI nnn s) (zextAddr_toNat nnn)⟩

/-- Settles O35: the sum is a word's, and I is the only component written. -/
theorem addIWrapsWithoutFlag : Obligations.AddIWrapsWithoutFlag :=
  ⟨fun _ h => decode_FXF (p := 0xF) (q := 0x1) (r := 0xE) (fun _ => rfl) h,
    fun x s => exec_sets_index (exec_addI x s) (add_zextByte_toNat s.i (s.getV x))⟩

/-- Settles O36: the glyph address is five times the digit, which the parameter selects. -/
theorem ldFFindsTheGlyph : Obligations.LdFFindsTheGlyph := by
  refine ⟨fun _ h => decode_FXF (p := 0xF) (q := 0x2) (r := 0x9) (fun _ => rfl) h, fun x s => ?_⟩
  obtain ⟨t, hexec, hglyph, honly⟩ := exec_sets_index (exec_ldF x s) (glyphAddress_toNat (fontDigit s x))
  refine ⟨t, hexec, fun hall => ?_, fun hmask => ?_, honly⟩
  · rw [hglyph, fontDigit_unmasked hall]
  · rw [hglyph, fontDigit_masked_toNat hmask]

end Sys2Proof.Machine
end

section
/-! The words of format FXYN (spec/30_encoding.md R74), and what the display instructions answer on the post-fetch state
(spec/43_display.md). -/

namespace Sys2Proof

/-- A word of format FXYN decodes to its major nibble's instruction of its two register fields and its row count
(R74, R77). -/
theorem decode_FXYN {w : Word} {p : Nibble} {f : Nibble → Nibble → Nibble → Instr}
    (hf : ∀ a b c, decodeNibbles p a b c = some (f a b c)) (h : w &&& 0xF000 = wordOf p 0 0 0) :
    decode w = some (f (w.extractLsb' 8 4) (w.extractLsb' 4 4) (w.extractLsb' 0 4)) := by
  rw [and_F000] at h
  rw [decode, h]
  exact hf ..

end Sys2Proof

namespace Sys2Proof.Machine

theorem exec_cls (s : State) : exec .cls s = .next (s.setFb Framebuffer.blank) := rfl

theorem exec_drw_inside (x y : Nibble) {n : Nibble} {s : State}
    (h : n.toNat = 0 ∨ s.i.toNat + n.toNat ≤ Config.memSize) :
    exec (.drw x y n) s = .next ((s.setFb (drawSprite x y n s).1).setFlag (drawSprite x y n s).2) :=
  withBlock_inside h _

/-- An answer that writes the framebuffer and a flag, by what both read as: no register but VF changes (R202). -/
theorem exec_writes_fb_flag {i : Instr} {s : State} {fb : Framebuffer} {c : Bool}
    (h : exec i s = .next ((s.setFb fb).setFlag c)) :
    ∃ t, exec i s = .next t ∧ t.fb = fb ∧ t.getV vf = flagByte c ∧ (∀ z, z ≠ vf → t.getV z = s.getV z) ∧
      t = { s with v := t.v, fb := t.fb } := by
  refine ⟨_, h, rfl, ?_, fun z hz => ?_, rfl⟩
  · rw [State.getV_setFlag, if_pos rfl]
  · rw [State.getV_setFlag, if_neg hz, State.getV_setFb]

end Sys2Proof.Machine
end

section
/-! The obligations of the display (spec/43_display.md), assembled from the decoding of each word and the answers above. -/

namespace Sys2Proof.Machine

/-- Settles O44: only the fixed word of its row decodes to CLS, and every cell of the blank framebuffer is unlit. -/
theorem clsClearsTheFramebuffer : Obligations.ClsClearsTheFramebuffer :=
  ⟨fun _ => ⟨eq_pattern_of_decode rfl, fun h => h ▸ rfl⟩,
    fun s => ⟨_, exec_cls s, Framebuffer.blank_getElem, rfl⟩⟩

/-- Settles O45: inside memory the cells and the collision are those of `drawSprite_spec`, and VF is the collision's
flag; a block that ends outside raises the fault of every block access. -/
theorem drwFlipsTheSpriteCells : Obligations.DrwFlipsTheSpriteCells := by
  refine ⟨fun _ h => decode_FXYN (p := 0xD) (fun _ _ _ => rfl) h,
    fun x y n s hit hhit => ⟨fun h => ?inside, fun hn h => ?outside⟩⟩
  case inside =>
    obtain ⟨hflips, hkeeps, hcollision⟩ := drawSprite_spec x y n s hit hhit
    obtain ⟨t, hexec, hfb, hvf, hother, honly⟩ := exec_writes_fb_flag (exec_drw_inside x y h)
    refine ⟨t, hexec, hfb ▸ hflips, hfb ▸ hkeeps, fun hlit => ?lit, fun hunlit => ?unlit, hother, honly⟩
    case lit => rw [hvf, hcollision.2 hlit]; rfl
    case unlit =>
      have hnone : (drawSprite x y n s).2 = false := by
        refine Bool.eq_false_iff.2 fun hc => ?_
        obtain ⟨k, hk, hlit⟩ := hcollision.1 hc
        exact Bool.false_ne_true ((hunlit k hk).symm.trans hlit)
      rw [hvf, hnone]
      rfl
  case outside => exact exec_block_outside (.inr (.inr (.inr ⟨x, y, n, rfl, rfl⟩))) (by omega)

end Sys2Proof.Machine
end

section
/-! What the key and timer instructions answer on the post-fetch state (spec/44_keys_timers.md), once per instruction and
case, and which key a wait for a key takes. -/

namespace Sys2Proof.Machine

/-- A register that holds no key's index raises the fault of every key access (R220, R221, R244). -/
theorem withKey_outside {x : Nibble} {s : State} (h : 15 < (s.getV x).toNat) (body : Nibble → State) :
    withKey x s body = .next { s with pc := s.pc - 2, fault := some (.keyIndexOutOfRange (s.getV x)) } := by
  rw [withKey_eq, if_pos h, raiseFault_eq]

theorem exec_skp_outside {x : Nibble} {s : State} (h : 15 < (s.getV x).toNat) :
    exec (.skp x) s = .next { s with pc := s.pc - 2, fault := some (.keyIndexOutOfRange (s.getV x)) } :=
  withKey_outside h fun k => s.skipIf (s.key k)

theorem exec_sknp_outside {x : Nibble} {s : State} (h : 15 < (s.getV x).toNat) :
    exec (.sknp x) s = .next { s with pc := s.pc - 2, fault := some (.keyIndexOutOfRange (s.getV x)) } :=
  withKey_outside h fun k => s.skipIf (!s.key k)

/-- The lowest pressed key is the one that `firstKey` answers (R222). -/
theorem State.firstKey_eq_some {s : State} {k : Nibble} (hk : s.key k = true)
    (hlow : ∀ j : Nibble, j.toNat < k.toNat → s.key j = false) : s.firstKey = some k := by
  cases hfirst : s.firstKey with
  | none => exact absurd hk (Bool.eq_false_iff.1 (s.firstKey_none.1 hfirst k))
  | some j =>
    obtain ⟨hj, hlow'⟩ := State.firstKey_some hfirst
    have hkj : ¬ k.toNat < j.toNat := fun h => Bool.eq_false_iff.1 (hlow' k h) hk
    have hjk : ¬ j.toNat < k.toNat := fun h => Bool.eq_false_iff.1 (hlow j h) hj
    exact congrArg some (BitVec.eq_of_toNat_eq (by omega))

theorem exec_ldKey_of_some (x : Nibble) {k : Nibble} {s : State} (h : s.firstKey = some k) :
    exec (.ldKey x) s = .next (s.setV x (k.setWidth 8)) := by
  rw [exec, execLdKey, h]

theorem exec_ldKey_of_none (x : Nibble) {s : State} (h : s.firstKey = none) :
    exec (.ldKey x) s = .next (s.setPc s.fetchPc) := by
  rw [exec, execLdKey, h]

/-- A key's index as a byte keeps its value (R222). -/
theorem setWidth_nibble_toNat (k : Nibble) : (k.setWidth 8).toNat = k.toNat :=
  BitVec.toNat_setWidth_of_le (by decide)

/-- A wait for a key that finds none pressed is a step that changes nothing: it undoes the fetch advance of PC (R222). -/
theorem step_ldKey_waits {x : Nibble} {s : State} (hrun : s.Running) (hin : s.FetchInside)
    (hdec : decode s.wordAtPc = some (.ldKey x)) (hkeys : ∀ j : Nibble, s.key j = false) : step s = .next s := by
  have hnone : (s.setPc (s.pc + 2)).firstKey = none := (State.firstKey_none _).2 hkeys
  have hback : (s.setPc (s.pc + 2)).fetchPc = s.pc := s.fetchPc_after_fetch s.pc
  calc step s = exec (.ldKey x) (s.setPc (s.pc + 2)) := cycle_runs exec hrun hin hdec
    _ = .next ((s.setPc (s.pc + 2)).setPc (s.setPc (s.pc + 2)).fetchPc) := exec_ldKey_of_none x hnone
    _ = .next s := by rw [hback]; rfl

theorem exec_ldFromDT (x : Nibble) (s : State) : exec (.ldFromDT x) s = .next (s.setV x s.dt) := rfl

theorem exec_ldDT (x : Nibble) (s : State) : exec (.ldDT x) s = .next (s.setDT (s.getV x)) := rfl

theorem exec_ldST (x : Nibble) (s : State) : exec (.ldST x) s = .next (s.setST (s.getV x)) := rfl

end Sys2Proof.Machine
end

section
/-! The obligations of keys and timers (spec/44_keys_timers.md), assembled from the decoding of each word and the answers
above. -/

namespace Sys2Proof.Machine

/-- Settles O48: the lowest pressed key is `firstKey`'s, and with none pressed the step is `step_ldKey_waits`. -/
theorem ldKeyTakesTheLowestKey : Obligations.LdKeyTakesTheLowestKey := by
  refine ⟨fun _ h => decode_FXF (p := 0xF) (q := 0x0) (r := 0xA) (fun _ => rfl) h,
    fun x k s hk hlow => ?takes, fun x s hkeys => ⟨?waits, fun hrun hin hdec => step_ldKey_waits hrun hin hdec hkeys⟩⟩
  case takes =>
    obtain ⟨t, hexec, hread, honly⟩ :=
      exec_writes_register (exec_ldKey_of_some x (State.firstKey_eq_some hk hlow))
    refine ⟨t, hexec, ?_, fun z hz => (hread z).trans (if_neg hz), honly⟩
    rw [hread, if_pos rfl, setWidth_nibble_toNat]
  case waits => exact exec_ldKey_of_none x (s.firstKey_none.2 hkeys)

/-- Settles O47: an index of a key skips by that key's state, and one above 15 raises. -/
theorem skipsOnAKey : Obligations.SkipsOnAKey := by
  refine ⟨fun _ h => decode_FXF (p := 0xE) (q := 0x9) (r := 0xE) (fun _ => rfl) h,
    fun _ h => decode_FXF (p := 0xE) (q := 0xA) (r := 0x1) (fun _ => rfl) h,
    fun x k s hk => ?inside, fun x s h => ⟨exec_skp_outside h, exec_sknp_outside h⟩⟩
  case inside =>
    rw [exec_skp hk, exec_sknp hk]
    constructor
    · intro hpressed
      rw [hpressed]
      exact ⟨rfl, rfl⟩
    · intro hfree
      rw [hfree]
      exact ⟨rfl, rfl⟩

/-- Settles O49: LD Vx, DT writes one register, and the other two moves write their timer. -/
theorem timerMoves : Obligations.TimerMoves :=
  ⟨fun _ h => decode_FXF (p := 0xF) (q := 0x0) (r := 0x7) (fun _ => rfl) h,
    fun _ h => decode_FXF (p := 0xF) (q := 0x1) (r := 0x5) (fun _ => rfl) h,
    fun _ h => decode_FXF (p := 0xF) (q := 0x1) (r := 0x8) (fun _ => rfl) h,
    fun x s => ⟨exec_writes_register (exec_ldFromDT x s), exec_ldDT x s, exec_ldST x s⟩⟩

end Sys2Proof.Machine
end

section
/-! What a step of a running machine gives: every instruction answers a next state, STEP returns what is latched in it, and
a latched fault has one of the causes of spec/60_exceptions.md R240. -/

namespace Sys2Proof.Machine

theorem withBlock_answers (n : Nat) (s body : State) : ∃ t, withBlock n s body = .next t := by
  rw [withBlock_eq]
  split
  · exact ⟨_, rfl⟩
  · exact ⟨_, rfl⟩

theorem withKey_answers (x : Nibble) (s : State) (body : Nibble → State) : ∃ t, withKey x s body = .next t := by
  rw [withKey_eq]
  split
  · exact ⟨_, rfl⟩
  · exact ⟨_, rfl⟩

/-- Every instruction answers a next state, whether it raises a fault in it or not (R240, log entry 3). -/
theorem exec_answers (i : Instr) (s : State) : ∃ t, exec i s = .next t := by
  cases i
  case call nnn =>
    by_cases h : s.sp.val < 16
    · exact ⟨_, exec_call_of_lt nnn h⟩
    · exact ⟨_, exec_call_full nnn (Fin.ext (show s.sp.val = 16 by omega))⟩
  case ret =>
    by_cases h : 0 < s.sp.val
    · exact ⟨_, exec_ret_of_pos h⟩
    · exact ⟨_, exec_ret_empty (Fin.ext (Nat.eq_zero_of_not_pos h))⟩
  case ldKey x =>
    cases h : s.firstKey with
    | some k => exact ⟨_, exec_ldKey_of_some x h⟩
    | none => exact ⟨_, exec_ldKey_of_none x h⟩
  case skp x => exact withKey_answers x s fun k => s.skipIf (s.key k)
  case sknp x => exact withKey_answers x s fun k => s.skipIf (!s.key k)
  case drw | ldB | storeRegs | loadRegs => exact withBlock_answers ..
  all_goals exact ⟨_, rfl⟩

theorem execGiven_answers (b : Byte) (i : Instr) (s : State) : ∃ t, execGiven b i s = .next t := by
  unfold execGiven
  split
  · exact ⟨_, rfl⟩
  · exact exec_answers ..

/-- A cycle of a running machine answers a next state when its instructions do (R70). -/
theorem cycle_answers {run : Instr → State → Result} {s : State} (hrun : s.Running)
    (hanswers : ∀ i t, ∃ t', run i t = .next t') : ∃ t, cycle run s = .next t := by
  by_cases hin : s.FetchInside
  · cases hdec : decode s.wordAtPc with
    | none => exact ⟨_, cycle_illegal run hrun hin hdec⟩
    | some i => rw [cycle_runs run hrun hin hdec]; exact hanswers ..
  · exact ⟨_, cycle_outside run hrun hin⟩

/-- STEP of a running machine: the next state of its cycle, and the result that is latched in it (R70, R246). -/
theorem hostStep_running {s : State} (b : Byte) (hrun : s.Running) :
    ∃ t, cycle (execGiven b) s = .next t ∧ hostStep b s = (t, stepResult t) := by
  obtain ⟨t, ht⟩ := cycle_answers hrun (execGiven_answers b)
  exact ⟨t, ht, hostStep_next ht⟩

/-- STEP of a latched machine returns its fault and changes nothing (R247). -/
theorem hostStep_latched {s : State} {f : Fault} (b : Byte) (h : s.fault = some f) :
    hostStep b s = (s, .stepFault f) := by
  rw [hostStep, cycle_latched _ h]

/-- What raises the fault of a step from this state: the fetch, the decode, or the instruction on the post-fetch state
(R70, R240). -/
def StepRaises (s : State) (f : Fault) : Prop :=
  (¬ s.FetchInside ∧ f = .memoryOutOfBounds (max s.pc.toNat Config.memSize)) ∨
  (s.FetchInside ∧ decode s.wordAtPc = none ∧ f = .unimplementedOpcode s.wordAtPc) ∨
  (s.FetchInside ∧ ∃ i, decode s.wordAtPc = some i ∧ Raises i (s.setPc (s.pc + 2)) f)

/-- A cycle that leaves a fault latched in a running machine took that fault on the state before the step, from one of its
causes, when its instructions raise only their own faults (R240, R246). -/
theorem cycle_raises {run : Instr → State → Result} {s t : State} {f : Fault}
    (hcases : ∀ {i s t}, run i s = .next t →
      (t.fault = s.fault ∧ t.params = s.params) ∨ ∃ f, Raises i s f ∧ t = takeFault f (s.setPc s.fetchPc))
    (hrun : s.Running) (h : cycle run s = .next t) (hf : t.fault = some f) :
    StepRaises s f ∧ t = takeFault f s := by
  by_cases hin : s.FetchInside
  · cases hdec : decode s.wordAtPc with
    | none =>
      rw [cycle_illegal run hrun hin hdec] at h
      cases h
      cases hf
      exact ⟨.inr (.inl ⟨hin, hdec, rfl⟩), rfl⟩
    | some i =>
      rw [cycle_runs run hrun hin hdec] at h
      obtain ⟨hkept, -⟩ | ⟨f', hraises, rfl⟩ := hcases h
      · have hnone : t.fault = none := hkept.trans hrun
        cases hnone.symm.trans hf
      · cases hf
        refine ⟨.inr (.inr ⟨hin, i, hdec, hraises⟩), ?_⟩
        exact congrArg (fun a => takeFault f (s.setPc a)) (s.fetchPc_after_fetch s.pc)
  · rw [cycle_outside run hrun hin] at h
    cases h
    cases hf
    exact ⟨.inl ⟨hin, rfl⟩, rfl⟩

end Sys2Proof.Machine
end

section
/-! What LOAD, the ticks and SET_KEY do, once per case (spec/60_exceptions.md R256, R257, R260, spec/70_reset_and_hazards.md
R284). -/

namespace Sys2Proof.Machine

theorem hostLoad_rejected {bytes : List Byte} (h : Config.maxProgramLen < bytes.length) (s : State) :
    hostLoad bytes s = (s, .loadSizeViolation bytes.length) := if_pos h

theorem hostLoad_accepted {bytes : List Byte} (h : ¬ Config.maxProgramLen < bytes.length) (s : State) :
    hostLoad bytes s = ((s.writeBytes Config.programStart bytes).setPc 0x200, .ok) := if_neg h

theorem hostTickDelay_stopped {s : State} (h : s.dt = 0) : hostTickDelay s = s := if_pos h

theorem hostTickDelay_counting {s : State} (h : s.dt ≠ 0) : hostTickDelay s = s.setDT (s.dt - 1) := if_neg h

theorem hostTickSound_stopped {s : State} (h : s.st = 0) : hostTickSound s = (s, .sound false) := by
  rw [hostTickSound, if_pos h, h]
  rfl

theorem hostTickSound_counting {s : State} (h : s.st ≠ 0) :
    hostTickSound s = (s.setST (s.st - 1), .sound (s.st == 1)) := by
  rw [hostTickSound, if_neg h]

/-- A timer that has not run out counts down without wrapping (R256, R257). -/
theorem toNat_sub_one_byte {b : Byte} (h : b ≠ 0) : (b - 1).toNat = b.toNat - 1 := by
  have hpos : b.toNat ≠ 0 := fun h0 => h (BitVec.eq_of_toNat_eq h0)
  exact BitVec.toNat_sub_of_le (Nat.one_le_iff_ne_zero.2 hpos)

theorem hostSetKey_invalid {n : Nat} (h : 15 < n) (p : Bool) (s : State) :
    hostSetKey n p s = (s, .keyIndexInvalid n) := if_pos h

theorem hostSetKey_valid {n : Nat} (h : n ≤ 15) (p : Bool) (s : State) :
    hostSetKey n p s = (s.setKey (BitVec.ofNat 4 n) p, .ok) := if_neg (Nat.not_lt.2 h)

/-- The last write to a key wins (R260). -/
theorem State.setKey_setKey (s : State) (k : Nibble) (p q : Bool) : (s.setKey k p).setKey k q = s.setKey k q := by
  simp only [State.setKey, Vector.set_set]

end Sys2Proof.Machine
end

section
/-! What the host operations other than RESET and STEP do under a latched fault, and what they and the instructions do to
the framebuffer (spec/60_exceptions.md R247, R262). -/

namespace Sys2Proof.Machine

/-! A latched fault -/

theorem takeFault_of_latched {s : State} {f : Fault} (h : s.fault = some f) :
    takeFault f { s with fault := none } = s := by
  rw [takeFault, ← h]

/-- Writing bytes neither reads nor writes the latch. -/
theorem State.writeBytes_takeFault (f : Fault) (bs : List Byte) : ∀ (s : State) (a : Nat),
    (takeFault f s).writeBytes a bs = takeFault f (s.writeBytes a bs) := by
  induction bs with
  | nil => intro s a; rfl
  | cons b bs ih => intro s a; exact ih (s.writeByte a b) (a + 1)

theorem hostLoad_takeFault (f : Fault) (bytes : List Byte) (s : State) :
    hostLoad bytes (takeFault f s) = (takeFault f (hostLoad bytes s).1, (hostLoad bytes s).2) := by
  by_cases h : Config.maxProgramLen < bytes.length
  · rw [hostLoad_rejected h, hostLoad_rejected h]
  · rw [hostLoad_accepted h, hostLoad_accepted h, State.writeBytes_takeFault]
    rfl

theorem hostTickDelay_takeFault (f : Fault) (s : State) :
    hostTickDelay (takeFault f s) = takeFault f (hostTickDelay s) := by
  by_cases h : s.dt = 0
  · rw [hostTickDelay_stopped h]
    exact hostTickDelay_stopped h
  · rw [hostTickDelay_counting h]
    exact hostTickDelay_counting h

theorem hostTickSound_takeFault (f : Fault) (s : State) :
    hostTickSound (takeFault f s) = (takeFault f (hostTickSound s).1, (hostTickSound s).2) := by
  by_cases h : s.st = 0
  · rw [hostTickSound_stopped h]
    exact hostTickSound_stopped h
  · rw [hostTickSound_counting h]
    exact hostTickSound_counting h

theorem hostSetKey_takeFault (f : Fault) (n : Nat) (p : Bool) (s : State) :
    hostSetKey n p (takeFault f s) = (takeFault f (hostSetKey n p s).1, (hostSetKey n p s).2) := by
  obtain h | h := Nat.lt_or_ge 15 n
  · rw [hostSetKey_invalid h, hostSetKey_invalid h]
  · rw [hostSetKey_valid h, hostSetKey_valid h]
    rfl

/-- An operation other than RESET and STEP neither reads nor writes the latch (R247). -/
theorem hostApply_takeFault {op : HostOp} (hreset : op ≠ .reset) (hstep : ∀ b, op ≠ .step b) (f : Fault) (s : State) :
    hostApply op (takeFault f s) = (takeFault f (hostApply op s).1, (hostApply op s).2) := by
  cases op with
  | reset => exact absurd rfl hreset
  | step b => exact absurd rfl (hstep b)
  | load bytes => exact hostLoad_takeFault f bytes s
  | tickDelay => exact congrArg (fun t => (t, HostResult.nothing)) (hostTickDelay_takeFault f s)
  | tickSound => exact hostTickSound_takeFault f s
  | setKey n p => exact hostSetKey_takeFault f n p s
  | readFb => rfl

/-! The framebuffer -/

@[simp] theorem State.skipIf_fb (s : State) (c : Bool) : (s.skipIf c).fb = s.fb := by
  rw [State.skipIf_eq, State.setPc_fb]

@[simp] theorem State.writeBytes_fb (s : State) (a : Nat) (bs : List Byte) : (s.writeBytes a bs).fb = s.fb := by
  rw [State.writeBytes_eq]

@[simp] theorem loadRegBlock_fb (s : State) (k : Nat) (bs : List Byte) : (loadRegBlock s k bs).fb = s.fb := by
  rw [loadRegBlock_only_v]

@[simp] theorem writeLogic_fb (x : Nibble) (r : Byte) (s : State) : (writeLogic x r s).fb = s.fb := by
  rw [writeLogic_only_v]

theorem withBlock_fb {n : Nat} {s body t : State} (h : withBlock n s body = .next t) (hbody : body.fb = s.fb) :
    t.fb = s.fb := by
  obtain ⟨-, rfl⟩ | ⟨-, rfl⟩ := withBlock_next h
  · rfl
  · exact hbody

theorem withKey_fb {x : Nibble} {s t : State} {body : Nibble → State} (h : withKey x s body = .next t)
    (hbody : ∀ k, (body k).fb = s.fb) : t.fb = s.fb := by
  obtain ⟨-, rfl⟩ | ⟨-, rfl⟩ := withKey_next h
  · rfl
  · exact hbody _

/-- An instruction keeps the framebuffer unless it is CLS or DRW (R28, R262). -/
theorem exec_fb {i : Instr} {s t : State} (h : exec i s = .next t) :
    t.fb = s.fb ∨ i = .cls ∨ ∃ x y n, i = .drw x y n := by
  cases i
  case cls => exact .inr (.inl rfl)
  case drw x y n => exact .inr (.inr ⟨x, y, n, rfl⟩)
  all_goals left
  case call | ret | ldKey =>
    simp only [exec, execCall, execRet, execLdKey] at h
    split at h
    · cases h; rfl
    · cases h; rfl
  case seImm | sneImm | seReg | sneReg => cases h; exact State.skipIf_fb ..
  case orReg | andReg | xorReg => cases h; exact writeLogic_fb ..
  case skp => exact withKey_fb (body := fun k => s.skipIf (s.key k)) h fun _ => State.skipIf_fb ..
  case sknp => exact withKey_fb (body := fun k => s.skipIf (!s.key k)) h fun _ => State.skipIf_fb ..
  case ldB | storeRegs => exact withBlock_fb h (State.writeBytes_fb ..)
  case loadRegs => exact withBlock_fb h (loadRegBlock_fb ..)
  all_goals cases h; rfl

theorem execGiven_fb {b : Byte} {i : Instr} {s t : State} (h : execGiven b i s = .next t) :
    t.fb = s.fb ∨ i = .cls ∨ ∃ x y n, i = .drw x y n := by
  unfold execGiven at h
  split at h
  · cases h; exact .inl rfl
  · exact exec_fb h

/-- STEP keeps the framebuffer unless the machine runs and the word at PC is CLS or DRW (R262). -/
theorem hostStep_fb {b : Byte} {s : State} (h : (hostStep b s).1.fb ≠ s.fb) : s.Running ∧ s.FetchInside ∧
    (decode s.wordAtPc = some .cls ∨ ∃ x y n, decode s.wordAtPc = some (.drw x y n)) := by
  cases hf : s.fault with
  | some f => rw [hostStep_latched b hf] at h; exact absurd rfl h
  | none =>
    obtain ⟨t, hcycle, hstep⟩ := hostStep_running b hf
    rw [hstep] at h
    obtain ⟨hrun, ⟨f, -, rfl⟩ | ⟨i, hin, hdec, hexec⟩⟩ := cycle_next hcycle
    · exact absurd rfl h
    · obtain hkept | rfl | ⟨x, y, n, rfl⟩ := execGiven_fb hexec
      · exact absurd hkept h
      · exact ⟨hrun, hin, .inl hdec⟩
      · exact ⟨hrun, hin, .inr ⟨x, y, n, hdec⟩⟩

theorem hostLoad_fb (bytes : List Byte) (s : State) : (hostLoad bytes s).1.fb = s.fb := by
  by_cases h : Config.maxProgramLen < bytes.length
  · rw [hostLoad_rejected h]
  · rw [hostLoad_accepted h]
    exact State.writeBytes_fb ..

theorem hostTickDelay_fb (s : State) : (hostTickDelay s).fb = s.fb := by
  by_cases h : s.dt = 0
  · rw [hostTickDelay_stopped h]
  · rw [hostTickDelay_counting h, State.setDT_fb]

theorem hostTickSound_fb (s : State) : (hostTickSound s).1.fb = s.fb := by
  by_cases h : s.st = 0
  · rw [hostTickSound_stopped h]
  · rw [hostTickSound_counting h, State.setST_fb]

theorem hostSetKey_fb (n : Nat) (p : Bool) (s : State) : (hostSetKey n p s).1.fb = s.fb := by
  obtain h | h := Nat.lt_or_ge 15 n
  · rw [hostSetKey_invalid h]
  · rw [hostSetKey_valid h, State.setKey_fb]

/-- An operation other than RESET and STEP keeps the framebuffer (R262). -/
theorem hostApply_fb {op : HostOp} (hreset : op ≠ .reset) (hstep : ∀ b, op ≠ .step b) (s : State) :
    (hostApply op s).1.fb = s.fb := by
  cases op with
  | reset => exact absurd rfl hreset
  | step b => exact absurd rfl (hstep b)
  | load bytes => exact hostLoad_fb bytes s
  | tickDelay => exact hostTickDelay_fb s
  | tickSound => exact hostTickSound_fb s
  | setKey n p => exact hostSetKey_fb n p s
  | readFb => rfl

end Sys2Proof.Machine
end

section
/-! The obligations of faults and of the host's view of them (spec/60_exceptions.md). -/

namespace Sys2Proof.Machine

/-- Settles O8: both the step and STEP take the decode fault of `cycle_illegal`, whatever runs the instructions. -/
theorem illegalWordFaults : Obligations.IllegalWordFaults :=
  ⟨fun _ hrun hin hdec => ⟨cycle_illegal exec hrun hin hdec,
    fun b => hostStep_next (cycle_illegal (execGiven b) hrun hin hdec)⟩, by decide⟩

/-- Settles O9: a latched STEP is `hostStep_latched`, and every operation but RESET and STEP passes the latch through
(`hostApply_takeFault`), applied to the state with the latch cleared. -/
theorem latchedFaultStays : Obligations.LatchedFaultStays := by
  intro s f hf
  have hpass : ∀ op, op ≠ .reset → (∀ b, op ≠ .step b) → hostApply op s =
      (takeFault f (hostApply op { s with fault := none }).1, (hostApply op { s with fault := none }).2) := by
    intro op hreset hstep
    rw [← hostApply_takeFault hreset hstep, takeFault_of_latched hf]
  refine ⟨cycle_latched exec hf, fun b => hostStep_latched b hf, fun op hreset => ?sticky, rfl, hpass⟩
  case sticky =>
    by_cases hstep : ∃ b, op = .step b
    · obtain ⟨b, rfl⟩ := hstep
      rw [hostApply, hostStep_latched b hf]
      exact hf
    · rw [hpass op hreset (not_exists.1 hstep)]
      rfl

/-- Settles O10: the fault latched by a cycle was taken on the state before the step (`cycle_raises`), and STEP's result
is read from the latch. -/
theorem faultIsAllOrNothing : Obligations.FaultIsAllOrNothing := by
  refine ⟨fun s t f hrun h hf => (cycle_raises exec_fault_cases hrun h hf).2, fun s t b r f hrun h => ?step⟩
  case step =>
    obtain ⟨t', hcycle, hstep⟩ := hostStep_running b hrun
    cases hstep.symm.trans h
    exact ⟨fun hf => ⟨stepResult_eq_stepFault.2 hf, (cycle_raises execGiven_fault_cases hrun hcycle hf).2⟩,
      stepResult_eq_stepFault.1⟩

/-- Settles O11: STEP's result is read from the latch, and a latched fault comes from the fetch, the decode or an
instruction's own cause (`StepRaises`), with the information each records. -/
theorem faultsComeFromTheirCauses : Obligations.FaultsComeFromTheirCauses := by
  intro s t b r hrun h
  obtain ⟨t', hcycle, hstep⟩ := hostStep_running b hrun
  cases hstep.symm.trans h
  cases hf : t.fault with
  | none => left; rw [stepResult, hf]
  | some f =>
    refine .inr ⟨f, stepResult_eq_stepFault.2 hf, ?_⟩
    obtain ⟨hout, rfl⟩ | ⟨hin, hdec, rfl⟩ | ⟨hin, i, hdec, hraises⟩ :=
      (cycle_raises execGiven_fault_cases hrun hcycle hf).1
    · exact ⟨rfl, Nat.le_max_right .., .inl ⟨hout, rfl⟩⟩
    · exact ⟨rfl, hin, rfl, hdec⟩
    · obtain ⟨nnn, rfl, hsp, rfl⟩ | ⟨rfl, hsp, rfl⟩ | ⟨x, hi, hx, rfl⟩ | ⟨n, hblock, hn, rfl⟩ := hraises
      · exact ⟨rfl, s.fetchPc_after_fetch s.pc, Fin.ext hsp, nnn, hdec⟩
      · exact ⟨rfl, s.fetchPc_after_fetch s.pc, Fin.ext hsp, hdec⟩
      · refine ⟨rfl, hx, x, rfl, ?_⟩
        obtain rfl | rfl := hi
        · exact .inl hdec
        · exact .inr hdec
      · refine ⟨rfl, Nat.le_max_right .., .inr ⟨hin, rfl, ?_⟩⟩
        obtain ⟨x, rfl, rfl⟩ | ⟨x, rfl, rfl⟩ | ⟨x, rfl, rfl⟩ | ⟨x, y, m, rfl, rfl⟩ := hblock
        · exact ⟨x, .inl ⟨hdec, hn⟩⟩
        · exact ⟨x, .inr (.inl ⟨hdec, hn⟩)⟩
        · exact ⟨x, .inr (.inr (.inl ⟨hdec, hn⟩))⟩
        · exact ⟨x, .inr (.inr (.inr ⟨y, m, hdec, hn⟩))⟩

/-- Settles O51: the two cases of TICK_SOUND, and after a tick that signalled ST is 0. -/
theorem tickSoundSignalsOnce : Obligations.TickSoundSignalsOnce := by
  intro s
  by_cases hzero : s.st = 0
  · exact ⟨s, false, hostTickSound_stopped hzero, by simp [hzero], by simp [hzero], rfl, fun h => nomatch h⟩
  · refine ⟨_, _, hostTickSound_counting hzero, ?signal, toNat_sub_one_byte hzero, rfl, fun hon => ?next⟩
    case signal => rw [beq_iff_eq, ← BitVec.toNat_inj]; rfl
    case next =>
      have hone : s.st = 1 := beq_iff_eq.1 hon
      exact hostTickSound_stopped (by rw [hone]; rfl)

/-- Settles O52: an index above 15 is rejected, and one up to 15 is that of one key, whose last write wins. -/
theorem setKeyOverwritesOneKey : Obligations.SetKeyOverwritesOneKey := by
  refine fun n p q s => ⟨fun hn => hostSetKey_invalid hn p s, fun hn => ?valid⟩
  refine ⟨s.setKey (BitVec.ofNat 4 n) p, hostSetKey_valid hn p s, fun k => ?key, rfl, ?last⟩
  case key =>
    have hk : k = BitVec.ofNat 4 n ↔ k.toNat = n := by
      rw [← BitVec.toNat_inj, BitVec.toNat_ofNat, Nat.mod_eq_of_lt (show n < 2 ^ 4 by omega)]
    simp only [State.key_setKey, hk]
  case last =>
    simp only [hostApply, hostSetKey_valid hn q, State.setKey_setKey]

/-- Settles O58: only RESET and a STEP that runs CLS or DRW are left by `hostApply_fb` and `hostStep_fb`. -/
theorem framebufferIsStable : Obligations.FramebufferIsStable := by
  refine ⟨fun _ => rfl, fun op s h => ?_⟩
  by_cases hreset : op = .reset
  · exact .inl hreset
  · by_cases hstep : ∃ b, op = .step b
    · obtain ⟨b, rfl⟩ := hstep
      exact .inr ⟨b, rfl, hostStep_fb h⟩
    · exact absurd (hostApply_fb hreset (not_exists.1 hstep) s) h

end Sys2Proof.Machine
end

section
/-! What a copied block of bytes reads as, and LOAD's obligation (spec/70_reset_and_hazards.md R284). -/

namespace Sys2Proof.Machine

/-- Byte `k` of a block of bytes reads back at the block's base plus `k`. -/
theorem State.readByte_writeBytes_inside (s : State) (a : Nat) {bs : List Byte} {k : Nat} {b : Byte}
    (h : bs[k]? = some b) : (s.writeBytes a bs).readByte (a + k) = b := by
  obtain ⟨hk, hb⟩ := List.getElem?_eq_some_iff.1 h
  have hin : a ≤ a + k ∧ a + k - a < bs.length := by omega
  rw [State.readByte_writeBytes, dif_pos hin]
  simp only [Nat.add_sub_cancel_left, hb]

theorem State.readByte_writeBytes_outside (s : State) {a z : Nat} {bs : List Byte}
    (h : z < a ∨ a + bs.length ≤ z) : (s.writeBytes a bs).readByte z = s.readByte z := by
  rw [State.readByte_writeBytes, dif_neg (by omega)]

/-- Settles O54: the two cases of LOAD, the second by what every byte after the copy reads as; the copy writes memory
only, so LOAD writes memory and PC only. -/
theorem loadCopiesTheProgram : Obligations.LoadCopiesTheProgram := by
  refine fun bytes s => ⟨fun hlong => hostLoad_rejected hlong s, fun hfits => ?accepted⟩
  refine ⟨_, hostLoad_accepted (Nat.not_lt.2 hfits) s, rfl, fun k b hk => ?copied, fun a ha => ?kept, ?frame⟩
  case copied => rw [State.readByte_setPc, State.readByte_writeBytes_inside s _ hk]
  case kept => rw [State.readByte_setPc, State.readByte_writeBytes_outside s ha]
  case frame => exact congrArg (State.setPc · 0x200) (State.writeBytes_eq ..)

end Sys2Proof.Machine
end

section
/-! The words of instructions read back by the decoder, and the words that decode (spec/30_encoding.md R73-R78, R82). -/

namespace Sys2Proof

/-- What the encoder writes in format FA, the decoder reads back (R74). -/
theorem decode_encodeFA {p : Nibble} {f : Addr → Instr}
    (hf : ∀ a b c, decodeNibbles p a b c = some (f (addrOf a b c))) (nnn : Addr) :
    decode (encodeFA p nnn) = some (f nnn) := by
  rw [encodeFA_eq, decode_wordOf, hf, addrOf_nibbles]

/-- The same for format FXB. -/
theorem decode_encodeFXB {p : Nibble} {f : Nibble → Byte → Instr}
    (hf : ∀ a b c, decodeNibbles p a b c = some (f a (byteOf b c))) (x : Nibble) (nn : Byte) :
    decode (encodeFXB p x nn) = some (f x nn) := by
  rw [encodeFXB_eq, decode_wordOf, hf, byteOf_nibbles]

/-- The same for format FXF. -/
theorem decode_encodeFXF {p x : Nibble} {f : Byte} {i : Instr}
    (hf : decodeNibbles p x (f.extractLsb' 4 4) (f.extractLsb' 0 4) = some i) :
    decode (encodeFXF p x f) = some i := by
  rw [encodeFXF_eq, decode_wordOf, hf]

/-- The same for formats FXY and FXYN. -/
theorem decode_encodeFXY {p x y f : Nibble} {i : Instr} (hf : decodeNibbles p x y f = some i) :
    decode (encodeFXY p x y f) = some i := by
  rw [encodeFXY, decode_wordOf, hf]

/-- Settles O1: the encoder writes each instruction in one of the formats, and the decoder reads each format back. -/
theorem decodeReadsBackEncode : Obligations.DecodeReadsBackEncode := by
  intro i
  cases i
  case nop | cls | ret => decide
  case jp | call | ldI | jpV0 => exact decode_encodeFA (fun _ _ _ => rfl) _
  case seImm | sneImm | ldImm | addImm | rnd => exact decode_encodeFXB (fun _ _ _ => rfl) _ _
  case skp | sknp | ldFromDT | ldKey | ldDT | ldST | addI | ldF | ldB | storeRegs | loadRegs =>
    exact decode_encodeFXF rfl
  all_goals exact decode_encodeFXY rfl

/-- The y nibble that the encoder writes for a word 8XYn: 0 for the shifts, which have no y operand (R76, R82). -/
def encodedY (y n : Nibble) : Nibble := if n = 0x6 ∨ n = 0xE then 0x0 else y

theorem encode_of_decodeF0 {b c d : Nibble} {i : Instr} (h : decodeF0 b c d = some i) :
    encode i = wordOf 0x0 b c d := by
  unfold decodeF0 at h
  split_ifs at h with hnop hcls hret
  · obtain ⟨rfl, rfl, rfl⟩ := hnop; cases h; rfl
  · obtain ⟨rfl, rfl, rfl⟩ := hcls; cases h; rfl
  · obtain ⟨rfl, rfl, rfl⟩ := hret; cases h; rfl

theorem encode_of_decode8 {x y n : Nibble} {i : Instr} (h : decode8 x y n = some i) :
    encode i = wordOf 0x8 x (encodedY y n) n := by
  unfold decode8 at h
  split at h <;> cases h <;> rfl

theorem encode_of_decodeE {x : Nibble} {f : Byte} {i : Instr} (h : decodeE x f = some i) :
    encode i = encodeFXF 0xE x f := by
  unfold decodeE at h
  split at h <;> cases h <;> rfl

theorem encode_of_decodeF {x : Nibble} {f : Byte} {i : Instr} (h : decodeF x f = some i) :
    encode i = encodeFXF 0xF x f := by
  unfold decodeF at h
  split at h <;> cases h <;> rfl

/-- An instruction decoded from nibbles encodes to their word, with the y nibble of 8XYn as the encoder writes it. -/
theorem encode_of_decodeNibbles {a b c d : Nibble} {i : Instr} (h : decodeNibbles a b c d = some i) :
    encode i = wordOf a b (if a = 0x8 then encodedY c d else c) d := by
  unfold decodeNibbles at h
  split at h
  case h_1 => exact encode_of_decodeF0 h
  case h_9 => exact encode_of_decode8 h
  case h_15 => exact encode_of_decodeE h
  case h_16 => exact encode_of_decodeF h
  case h_6 | h_10 =>
    split at h
    · next hd => cases h; subst hd; rfl
    · cases h
  case h_17 => cases h
  all_goals cases h; rfl

/-- A word AND 0xFF0F has y nibble 0. -/
theorem and_FF0F (w : Word) : w &&& 0xFF0F = wordOf (nibble1 w) (nibble2 w) 0 (nibble4 w) := by
  have h := wordOf_and (nibble1 w) (nibble2 w) (nibble3 w) (nibble4 w) 0xF 0xF 0 0xF
  rwa [wordOf_nibbles, nibble_and_F, nibble_and_F, nibble_and_0, nibble_and_F] at h

/-- The words of SHR and SHL (R141, R143). -/
theorem isShift_iff (w : Word) : (w &&& 0xF00F = 0x8006 ∨ w &&& 0xF00F = 0x800E) ↔
    nibble1 w = 0x8 ∧ (nibble4 w = 0x6 ∨ nibble4 w = 0xE) := by
  rw [and_or_left]
  exact or_congr (and_F00F w 0x8 0x6) (and_F00F w 0x8 0xE)

/-- Settles O2: by the word's nibbles, of which the encoder loses only the y nibble of the shifts. -/
theorem encodeGivesBackTheWord : Obligations.EncodeGivesBackTheWord := by
  intro w i h
  have henc := encode_of_decodeNibbles h
  rw [isShift_iff]
  refine ⟨fun ⟨h1, h4⟩ => ?shift, fun hno => ?other⟩
  case shift => rw [henc, and_FF0F, if_pos h1, encodedY, if_pos h4]
  case other =>
    have hy : (if nibble1 w = 0x8 then encodedY (nibble3 w) (nibble4 w) else nibble3 w) = nibble3 w := by
      split
      · next h1 => exact if_neg fun h4 => hno ⟨h1, h4⟩
      · rfl
    rw [henc, hy, wordOf_nibbles]

/-- Every instruction's row is in the opcode map, and its word selects that row (R77). -/
theorem encodesIntoRow (i : Instr) : Laws.EncodesIntoRow.Statement i := by
  cases i with
  | nop => exact Laws.EncodesIntoRow.nop
  | cls => exact Laws.EncodesIntoRow.cls
  | ret => exact Laws.EncodesIntoRow.ret
  | jp nnn => exact Laws.EncodesIntoRow.jp nnn
  | call nnn => exact Laws.EncodesIntoRow.call nnn
  | seImm x nn => exact Laws.EncodesIntoRow.seImm x nn
  | sneImm x nn => exact Laws.EncodesIntoRow.sneImm x nn
  | seReg x y => exact Laws.EncodesIntoRow.seReg x y
  | ldImm x nn => exact Laws.EncodesIntoRow.ldImm x nn
  | addImm x nn => exact Laws.EncodesIntoRow.addImm x nn
  | ldReg x y => exact Laws.EncodesIntoRow.ldReg x y
  | orReg x y => exact Laws.EncodesIntoRow.orReg x y
  | andReg x y => exact Laws.EncodesIntoRow.andReg x y
  | xorReg x y => exact Laws.EncodesIntoRow.xorReg x y
  | addReg x y => exact Laws.EncodesIntoRow.addReg x y
  | subReg x y => exact Laws.EncodesIntoRow.subReg x y
  | shr x => exact Laws.EncodesIntoRow.shr x
  | subnReg x y => exact Laws.EncodesIntoRow.subnReg x y
  | shl x => exact Laws.EncodesIntoRow.shl x
  | sneReg x y => exact Laws.EncodesIntoRow.sneReg x y
  | ldI nnn => exact Laws.EncodesIntoRow.ldI nnn
  | jpV0 nnn => exact Laws.EncodesIntoRow.jpV0 nnn
  | rnd x nn => exact Laws.EncodesIntoRow.rnd x nn
  | drw x y n => exact Laws.EncodesIntoRow.drw x y n
  | skp x => exact Laws.EncodesIntoRow.skp x
  | sknp x => exact Laws.EncodesIntoRow.sknp x
  | ldFromDT x => exact Laws.EncodesIntoRow.ldFromDT x
  | ldKey x => exact Laws.EncodesIntoRow.ldKey x
  | ldDT x => exact Laws.EncodesIntoRow.ldDT x
  | ldST x => exact Laws.EncodesIntoRow.ldST x
  | addI x => exact Laws.EncodesIntoRow.addI x
  | ldF x => exact Laws.EncodesIntoRow.ldF x
  | ldB x => exact Laws.EncodesIntoRow.ldB x
  | storeRegs x => exact Laws.EncodesIntoRow.storeRegs x
  | loadRegs x => exact Laws.EncodesIntoRow.loadRegs x

/-- The word that selects a row decodes to an instruction of that row (R73). -/
def RowDecodes (w : Word) (r : OpcodeRow) : Prop := r.selects w = true → ∃ i, decode w = some i ∧ i.row = r

/-- A row of one fixed word. -/
theorem rowDecodes_word {w p : Word} {i : Instr} {m : String} (hi : i.row = ⟨m, p, 0xFFFF⟩) (hp : decode p = some i) :
    RowDecodes w ⟨m, p, 0xFFFF⟩ := by
  intro h
  have hw : w = p := (and_FFFF w).symm.trans (beq_iff_eq.1 h)
  exact ⟨i, hw ▸ hp, hi⟩

/-- A row of format FA. -/
theorem rowDecodes_FA {w : Word} {p : Nibble} {f : Addr → Instr} {m : String}
    (hr : ∀ a, (f a).row = ⟨m, wordOf p 0 0 0, 0xF000⟩)
    (hf : ∀ a b c, decodeNibbles p a b c = some (f (addrOf a b c))) : RowDecodes w ⟨m, wordOf p 0 0 0, 0xF000⟩ :=
  fun h => ⟨_, decode_FA hf (beq_iff_eq.1 h), hr _⟩

/-- A row of format FXB. -/
theorem rowDecodes_FXB {w : Word} {p : Nibble} {f : Nibble → Byte → Instr} {m : String}
    (hr : ∀ a b, (f a b).row = ⟨m, wordOf p 0 0 0, 0xF000⟩)
    (hf : ∀ a b c, decodeNibbles p a b c = some (f a (byteOf b c))) : RowDecodes w ⟨m, wordOf p 0 0 0, 0xF000⟩ :=
  fun h => ⟨_, decode_FXB hf (beq_iff_eq.1 h), hr _ _⟩

/-- A row of format FXY. -/
theorem rowDecodes_FXY {w : Word} {p q : Nibble} {f : Nibble → Nibble → Instr} {m : String}
    (hr : ∀ a b, (f a b).row = ⟨m, wordOf p 0 0 q, 0xF00F⟩)
    (hf : ∀ a b, decodeNibbles p a b q = some (f a b)) : RowDecodes w ⟨m, wordOf p 0 0 q, 0xF00F⟩ :=
  fun h => ⟨_, decode_FXY hf (beq_iff_eq.1 h), hr _ _⟩

/-- A row of format FXF. -/
theorem rowDecodes_FXF {w : Word} {p q r : Nibble} {f : Nibble → Instr} {m : String}
    (hr : ∀ a, (f a).row = ⟨m, wordOf p 0 q r, 0xF0FF⟩)
    (hf : ∀ a, decodeNibbles p a q r = some (f a)) : RowDecodes w ⟨m, wordOf p 0 q r, 0xF0FF⟩ :=
  fun h => ⟨_, decode_FXF hf (beq_iff_eq.1 h), hr _⟩

/-- The row of format FXYN. -/
theorem rowDecodes_FXYN {w : Word} {p : Nibble} {f : Nibble → Nibble → Nibble → Instr} {m : String}
    (hr : ∀ a b c, (f a b c).row = ⟨m, wordOf p 0 0 0, 0xF000⟩)
    (hf : ∀ a b c, decodeNibbles p a b c = some (f a b c)) : RowDecodes w ⟨m, wordOf p 0 0 0, 0xF000⟩ :=
  fun h => ⟨_, decode_FXYN hf (beq_iff_eq.1 h), hr _ _ _⟩

/-- Every row of the opcode map, in its order, with the format of its words (R74, R77). -/
theorem opcodeMap_decodes (w : Word) : ∀ r ∈ opcodeMap, RowDecodes w r := by
  simp only [opcodeMap, List.forall_mem_append, List.forall_mem_cons]
  exact ⟨⟨⟨⟨rowDecodes_word (i := .nop) rfl rfl,
    rowDecodes_word (i := .cls) rfl rfl,
    rowDecodes_word (i := .ret) rfl rfl,
    rowDecodes_FA (p := 0x1) (f := .jp) (fun _ => rfl) fun _ _ _ => rfl,
    rowDecodes_FA (p := 0x2) (f := .call) (fun _ => rfl) fun _ _ _ => rfl,
    rowDecodes_FXB (p := 0x3) (f := .seImm) (fun _ _ => rfl) fun _ _ _ => rfl,
    rowDecodes_FXB (p := 0x4) (f := .sneImm) (fun _ _ => rfl) fun _ _ _ => rfl,
    rowDecodes_FXY (p := 0x5) (q := 0x0) (f := .seReg) (fun _ _ => rfl) fun _ _ => rfl,
    rowDecodes_FXB (p := 0x6) (f := .ldImm) (fun _ _ => rfl) fun _ _ _ => rfl,
    List.forall_mem_nil _⟩,
    ⟨rowDecodes_FXB (p := 0x7) (f := .addImm) (fun _ _ => rfl) fun _ _ _ => rfl,
    rowDecodes_FXY (p := 0x8) (q := 0x0) (f := .ldReg) (fun _ _ => rfl) fun _ _ => rfl,
    rowDecodes_FXY (p := 0x8) (q := 0x1) (f := .orReg) (fun _ _ => rfl) fun _ _ => rfl,
    rowDecodes_FXY (p := 0x8) (q := 0x2) (f := .andReg) (fun _ _ => rfl) fun _ _ => rfl,
    rowDecodes_FXY (p := 0x8) (q := 0x3) (f := .xorReg) (fun _ _ => rfl) fun _ _ => rfl,
    rowDecodes_FXY (p := 0x8) (q := 0x4) (f := .addReg) (fun _ _ => rfl) fun _ _ => rfl,
    rowDecodes_FXY (p := 0x8) (q := 0x5) (f := .subReg) (fun _ _ => rfl) fun _ _ => rfl,
    rowDecodes_FXY (p := 0x8) (q := 0x6) (f := fun x _ => .shr x) (fun _ _ => rfl) fun _ _ => rfl,
    rowDecodes_FXY (p := 0x8) (q := 0x7) (f := .subnReg) (fun _ _ => rfl) fun _ _ => rfl,
    List.forall_mem_nil _⟩⟩,
    ⟨rowDecodes_FXY (p := 0x8) (q := 0xE) (f := fun x _ => .shl x) (fun _ _ => rfl) fun _ _ => rfl,
    rowDecodes_FXY (p := 0x9) (q := 0x0) (f := .sneReg) (fun _ _ => rfl) fun _ _ => rfl,
    rowDecodes_FA (p := 0xA) (f := .ldI) (fun _ => rfl) fun _ _ _ => rfl,
    rowDecodes_FA (p := 0xB) (f := .jpV0) (fun _ => rfl) fun _ _ _ => rfl,
    rowDecodes_FXB (p := 0xC) (f := .rnd) (fun _ _ => rfl) fun _ _ _ => rfl,
    rowDecodes_FXYN (p := 0xD) (f := .drw) (fun _ _ _ => rfl) fun _ _ _ => rfl,
    rowDecodes_FXF (p := 0xE) (q := 0x9) (r := 0xE) (f := .skp) (fun _ => rfl) fun _ => rfl,
    rowDecodes_FXF (p := 0xE) (q := 0xA) (r := 0x1) (f := .sknp) (fun _ => rfl) fun _ => rfl,
    rowDecodes_FXF (p := 0xF) (q := 0x0) (r := 0x7) (f := .ldFromDT) (fun _ => rfl) fun _ => rfl,
    List.forall_mem_nil _⟩⟩,
    rowDecodes_FXF (p := 0xF) (q := 0x0) (r := 0xA) (f := .ldKey) (fun _ => rfl) fun _ => rfl,
    rowDecodes_FXF (p := 0xF) (q := 0x1) (r := 0x5) (f := .ldDT) (fun _ => rfl) fun _ => rfl,
    rowDecodes_FXF (p := 0xF) (q := 0x1) (r := 0x8) (f := .ldST) (fun _ => rfl) fun _ => rfl,
    rowDecodes_FXF (p := 0xF) (q := 0x1) (r := 0xE) (f := .addI) (fun _ => rfl) fun _ => rfl,
    rowDecodes_FXF (p := 0xF) (q := 0x2) (r := 0x9) (f := .ldF) (fun _ => rfl) fun _ => rfl,
    rowDecodes_FXF (p := 0xF) (q := 0x3) (r := 0x3) (f := .ldB) (fun _ => rfl) fun _ => rfl,
    rowDecodes_FXF (p := 0xF) (q := 0x5) (r := 0x5) (f := .storeRegs) (fun _ => rfl) fun _ => rfl,
    rowDecodes_FXF (p := 0xF) (q := 0x6) (r := 0x5) (f := .loadRegs) (fun _ => rfl) fun _ => rfl,
    List.forall_mem_nil _⟩

/-- The mask of a shift's row leaves out the y nibble that its encoding loses (R77, R82). -/
theorem row_mask_of_shift {w : Word} {i : Instr} (h : decode w = some i)
    (hshift : w &&& 0xF00F = 0x8006 ∨ w &&& 0xF00F = 0x800E) : i.row.mask = 0xF00F := by
  have h1 := ((isShift_iff w).1 hshift).1
  rw [decode, h1] at h
  exact decode8_mask h

/-- A word that decodes to an instruction selects that instruction's row (R73). -/
theorem selects_of_decode {w : Word} {i : Instr} (h : decode w = some i) : i.row.selects w = true := by
  obtain ⟨hshift, hother⟩ := encodeGivesBackTheWord w i h
  have hsel := (encodesIntoRow i).2
  by_cases hs : w &&& 0xF00F = 0x8006 ∨ w &&& 0xF00F = 0x800E
  · have hmask : w &&& 0xFF0F &&& i.row.mask = w &&& i.row.mask := by
      rw [row_mask_of_shift h hs, BitVec.and_assoc]
      rfl
    rw [hshift hs, OpcodeRow.selects, hmask] at hsel
    exact hsel
  · rwa [hother hs] at hsel

/-- Settles O3: each row's words decode to its instructions (`opcodeMap_decodes`); two rows that select one word are the
row of what it decodes to; and a word that decodes selects a row of the map. -/
theorem decodeFollowsTheOpcodeMap : Obligations.DecodeFollowsTheOpcodeMap := by
  refine fun w => ⟨opcodeMap_decodes w, fun r r' hr hr' hsel hsel' => ?disjoint, fun hnone => ?none⟩
  case disjoint =>
    obtain ⟨i, hi, rfl⟩ := opcodeMap_decodes w r hr hsel
    obtain ⟨i', hi', rfl⟩ := opcodeMap_decodes w r' hr' hsel'
    rw [Option.some.inj (hi.symm.trans hi')]
  case none =>
    cases hdec : decode w with
    | none => rfl
    | some i =>
      exact absurd ((selects_of_decode hdec).symm.trans (hnone i.row (encodesIntoRow i).1)) Bool.true_eq_false_eq_False

theorem addrOf_inj {b c d b' c' d' : Nibble} : addrOf b c d = addrOf b' c' d' ↔ b = b' ∧ c = c' ∧ d = d' := by
  constructor
  · intro h
    exact (wordOf_inj.1 (congrArg (fun a : Addr => ((0x0#4 ++ a : BitVec (4 + 12)) : Word)) h)).2
  · rintro ⟨rfl, rfl, rfl⟩
    rfl

/-- The words 0NNN that are no instruction (R78, R79). -/
theorem decodeF0_eq_none {b c d : Nibble} :
    decodeF0 b c d = none ↔ addrOf b c d ∉ [0x000#12, 0x0E0#12, 0x0EE#12] := by
  have hnop : addrOf b c d = 0x000#12 ↔ b = 0x0 ∧ c = 0x0 ∧ d = 0x0 := addrOf_inj (b' := 0x0) (c' := 0x0) (d' := 0x0)
  have hcls : addrOf b c d = 0x0E0#12 ↔ b = 0x0 ∧ c = 0xE ∧ d = 0x0 := addrOf_inj (b' := 0x0) (c' := 0xE) (d' := 0x0)
  have hret : addrOf b c d = 0x0EE#12 ↔ b = 0x0 ∧ c = 0xE ∧ d = 0xE := addrOf_inj (b' := 0x0) (c' := 0xE) (d' := 0xE)
  simp only [List.mem_cons, List.not_mem_nil, or_false, hnop, hcls, hret]
  unfold decodeF0
  split_ifs <;> simp [*]

/-- The function nibbles R78 lists for 8XYn are those that R77 has no row for. -/
theorem illegal_functionNibble_iff : ∀ n : Nibble, n ∈ [0x8#4, 0x9#4, 0xA#4, 0xB#4, 0xC#4, 0xD#4, 0xF#4] ↔
    n ∉ [0x0#4, 0x1#4, 0x2#4, 0x3#4, 0x4#4, 0x5#4, 0x6#4, 0x7#4, 0xE#4] := by
  decide

/-- The function nibbles of 8XYn that select no row (R78, R144). -/
theorem decode8_eq_none {x y n : Nibble} :
    decode8 x y n = none ↔ n ∈ [0x8#4, 0x9#4, 0xA#4, 0xB#4, 0xC#4, 0xD#4, 0xF#4] := by
  rw [illegal_functionNibble_iff]
  unfold decode8
  split <;> simp_all

/-- The function bytes of EXnn that select no row (R78). -/
theorem decodeE_eq_none {x : Nibble} {f : Byte} : decodeE x f = none ↔ f ∉ [0x9E#8, 0xA1#8] := by
  unfold decodeE
  split <;> simp_all

/-- The function bytes of FXnn that select no row (R78). -/
theorem decodeF_eq_none {x : Nibble} {f : Byte} : decodeF x f = none ↔
    f ∉ [0x07#8, 0x0A#8, 0x15#8, 0x18#8, 0x1E#8, 0x29#8, 0x33#8, 0x55#8, 0x65#8] := by
  unfold decodeF
  split <;> simp_all

/-- The words 5XYn and 9XYn that select no row (R78, R106, R107). -/
theorem decode_skipReg_eq_none {d : Nibble} {i : Instr} : (if d = 0x0#4 then some i else none) = none ↔ d ≠ 0x0#4 := by
  split <;> simp_all

/-- The five classes of words that are no instruction (R78), by the nibbles of the word. -/
def IllegalNibbles (a b c d : Nibble) : Prop :=
  (a = 0x0#4 ∧ addrOf b c d ∉ [0x000#12, 0x0E0#12, 0x0EE#12]) ∨
  (a ∈ [0x5#4, 0x9#4] ∧ d ≠ 0x0#4) ∨
  (a = 0x8#4 ∧ d ∈ [0x8#4, 0x9#4, 0xA#4, 0xB#4, 0xC#4, 0xD#4, 0xF#4]) ∨
  (a = 0xE#4 ∧ byteOf c d ∉ [0x9E#8, 0xA1#8]) ∨
  (a = 0xF#4 ∧ byteOf c d ∉ [0x07#8, 0x0A#8, 0x15#8, 0x18#8, 0x1E#8, 0x29#8, 0x33#8, 0x55#8, 0x65#8])

/-- Each major nibble has its own class, or none (R77, R78). -/
theorem decodeNibbles_eq_none {a b c d : Nibble} : decodeNibbles a b c d = none ↔ IllegalNibbles a b c d := by
  have hmajor : ∀ k : Nibble, k ∈ [0x0#4, 0x1#4, 0x2#4, 0x3#4, 0x4#4, 0x5#4, 0x6#4, 0x7#4, 0x8#4, 0x9#4, 0xA#4,
      0xB#4, 0xC#4, 0xD#4, 0xE#4, 0xF#4] := by decide
  unfold decodeNibbles IllegalNibbles
  split
  case h_1 => rw [decodeF0_eq_none]; simp
  case h_6 | h_10 => rw [decode_skipReg_eq_none]; simp
  case h_9 => rw [decode8_eq_none]; simp
  case h_15 => rw [decodeE_eq_none]; simp
  case h_16 => rw [decodeF_eq_none]; simp
  case h_17 =>
    have ha := hmajor a
    simp_all
  all_goals simp

/-- Settles O4: the five classes, read from the word's nibbles. -/
theorem illegalWordsAreTheListedOnes : Obligations.IllegalWordsAreTheListedOnes := by
  intro w
  have h : decode w = none ↔ IllegalNibbles (nibble1 w) (nibble2 w) (nibble3 w) (nibble4 w) := decodeNibbles_eq_none
  rw [IllegalNibbles, addrOf_word, byteOf_word] at h
  exact h

/-- Settles O5: the decoder evaluated on each of the words. -/
theorem sampleWordsDecode : Obligations.SampleWordsDecode := by
  unfold Obligations.SampleWordsDecode
  decide

end Sys2Proof
end

section
/-! Everything an instruction can do to the state when it answers a next state: one inversion lemma, from which the
invariant and the frame of every component follow. -/

namespace Sys2Proof.Machine

/-- The instructions that write one register and no flag, and which register. -/
def WritesRegister (i : Instr) (x : Nibble) : Prop :=
  (∃ nn, i = .ldImm x nn ∨ i = .addImm x nn ∨ i = .rnd x nn) ∨ (∃ y, i = .ldReg x y) ∨ i = .ldFromDT x ∨ i = .ldKey x

/-- The instructions that write a logic result, and to which register (R134). -/
def WritesLogic (i : Instr) (x : Nibble) : Prop := ∃ y, i = .orReg x y ∨ i = .andReg x y ∨ i = .xorReg x y

/-- The instructions that write a result and its flag, and to which register (R138). -/
def WritesResultFlag (i : Instr) (x : Nibble) : Prop :=
  (∃ y, i = .addReg x y ∨ i = .subReg x y ∨ i = .subnReg x y) ∨ i = .shr x ∨ i = .shl x

/-- The instructions that write I (R23). -/
def WritesIndex (i : Instr) : Prop := (∃ nnn, i = .ldI nnn) ∨ ∃ x, i = .addI x ∨ i = .ldF x

/-- The instructions that write memory (R61). -/
def WritesMemory (i : Instr) : Prop := ∃ x, i = .ldB x ∨ i = .storeRegs x

/-- `Effect i s t`: `t` is a next state that instruction `i` can give on the post-fetch state `s`. -/
inductive Effect : Instr → State → State → Prop where
  | raises {i s} (f : Fault) : faultGenuine f → Effect i s (takeFault f (s.setPc s.fetchPc))
  | skips {i s} (c : Bool) : Effect i s (s.skipIf c)
  | jumps {i s} (a : Word) : a.toNat ≤ 0x10FE → Effect i s (s.setPc a)
  | waits {x s} : Effect (.ldKey x) s (s.setPc s.fetchPc)
  | calls {nnn s} (h : s.sp.val < 16) : Effect (.call nnn) s ((s.push s.pc h).setPc (zextAddr nnn))
  | returns {s} (h : 0 < s.sp.val) : Effect .ret s (s.popPc h)
  | writesRegister {i s x} (b : Byte) : WritesRegister i x → Effect i s (s.setV x b)
  | drawsByte {x nn s} (b : Byte) : Effect (.rnd x nn) s (s.setV x b).advanceDraws
  | writesLogic {i s x} (r : Byte) : WritesLogic i x → Effect i s (writeLogic x r s)
  | writesResultFlag {i s x} (r : Byte) (c : Bool) : WritesResultFlag i x → Effect i s (writeResultFlag x r c s)
  | loadsBlock {x s} (bs : List Byte) : bs.length = x.toNat + 1 → Effect (.loadRegs x) s (loadRegBlock s 0 bs)
  | writesIndex {i s} (a : Word) : WritesIndex i → Effect i s (s.setI a)
  | writesDT {x s} (b : Byte) : Effect (.ldDT x) s (s.setDT b)
  | writesST {x s} (b : Byte) : Effect (.ldST x) s (s.setST b)
  | clears {s} : Effect .cls s (s.setFb Framebuffer.blank)
  | drawsSprite {x y n s} (fb : Framebuffer) (c : Bool) : Effect (.drw x y n) s ((s.setFb fb).setFlag c)
  | writesMemory {i s} (bs : List Byte) : WritesMemory i → s.i.toNat + bs.length ≤ Config.memSize →
      Effect i s (s.writeBytes s.i.toNat bs)

/-- A block access raises the fault of a block that ends outside memory, or its body has happened (R173). -/
theorem Effect.of_withBlock {n : Nat} {i : Instr} {s body t : State} (h : withBlock n s body = .next t)
    (hbody : n = 0 ∨ s.i.toNat + n ≤ Config.memSize → Effect i s body) : Effect i s t := by
  obtain ⟨-, rfl⟩ | ⟨hin, rfl⟩ := withBlock_next h
  · exact .raises _ (Nat.le_max_right ..)
  · exact hbody hin

/-- A key access raises the fault of an index above 15, or its skip has happened (R220, R221). -/
theorem Effect.of_withKey {x : Nibble} {i : Instr} {s t : State} {c : Nibble → Bool}
    (h : withKey x s (fun k => s.skipIf (c k)) = .next t) : Effect i s t := by
  obtain ⟨hx, rfl⟩ | ⟨-, rfl⟩ := withKey_next h
  · exact .raises (.keyIndexOutOfRange _) hx
  · exact .skips _

/-- The highest address a jump can reach is 0xFFF plus a byte (R24, R108). -/
theorem zextAddr_add_zextByte_le (nnn : Addr) (b : Byte) : (zextAddr nnn + zextByte b).toNat ≤ 0x10FE := by
  rw [zextAddr_add_zextByte_toNat]
  omega

/-- A next state that an instruction answers is the one of its effect. -/
theorem exec_effect {i : Instr} {s t : State} (h : exec i s = .next t) : Effect i s t := by
  cases i
  case nop => cases h; exact .skips false
  case cls => cases h; exact .clears
  case jp nnn => cases h; exact .jumps _ (by rw [zextAddr_toNat]; omega)
  case jpV0 nnn => cases h; exact .jumps _ (zextAddr_add_zextByte_le ..)
  case call nnn =>
    simp only [exec, execCall] at h
    split at h
    · cases h; exact .calls _
    · cases h; exact .raises (.stackOverflow _) trivial
  case ret =>
    simp only [exec, execRet] at h
    split at h
    · cases h; exact .returns _
    · cases h; exact .raises (.stackUnderflow _) trivial
  case seImm | sneImm | seReg | sneReg => cases h; exact .skips _
  case skp => exact .of_withKey (c := s.key) h
  case sknp => exact .of_withKey (c := fun k => !s.key k) h
  case ldKey x =>
    simp only [exec, execLdKey] at h
    split at h
    · cases h; exact .writesRegister _ (.inr (.inr (.inr rfl)))
    · cases h; exact .waits
  case ldImm x nn => cases h; exact .writesRegister _ (.inl ⟨nn, .inl rfl⟩)
  case addImm x nn => cases h; exact .writesRegister _ (.inl ⟨nn, .inr (.inl rfl)⟩)
  case ldReg x y => cases h; exact .writesRegister _ (.inr (.inl ⟨y, rfl⟩))
  case ldFromDT x => cases h; exact .writesRegister _ (.inr (.inr (.inl rfl)))
  case rnd => cases h; exact .drawsByte _
  case orReg x y => cases h; exact .writesLogic _ ⟨y, .inl rfl⟩
  case andReg x y => cases h; exact .writesLogic _ ⟨y, .inr (.inl rfl)⟩
  case xorReg x y => cases h; exact .writesLogic _ ⟨y, .inr (.inr rfl)⟩
  case addReg x y => cases h; exact .writesResultFlag _ _ (.inl ⟨y, .inl rfl⟩)
  case subReg x y => cases h; exact .writesResultFlag _ _ (.inl ⟨y, .inr (.inl rfl)⟩)
  case subnReg x y => cases h; exact .writesResultFlag _ _ (.inl ⟨y, .inr (.inr rfl)⟩)
  case shr => cases h; exact .writesResultFlag _ _ (.inr (.inl rfl))
  case shl => cases h; exact .writesResultFlag _ _ (.inr (.inr rfl))
  case ldI nnn => cases h; exact .writesIndex _ (.inl ⟨nnn, rfl⟩)
  case addI x => cases h; exact .writesIndex _ (.inr ⟨x, .inl rfl⟩)
  case ldF x => cases h; exact .writesIndex _ (.inr ⟨x, .inr rfl⟩)
  case ldDT => cases h; exact .writesDT _
  case ldST => cases h; exact .writesST _
  case drw => exact .of_withBlock h fun _ => .drawsSprite _ _
  case ldB x =>
    refine .of_withBlock h fun hin => .writesMemory _ ⟨x, .inl rfl⟩ ?_
    rw [bcdBytes_length]
    omega
  case storeRegs x =>
    refine .of_withBlock h fun hin => .writesMemory _ ⟨x, .inr rfl⟩ ?_
    rw [regBlock_length]
    exact hin.resolve_left (Nat.succ_ne_zero _)
  case loadRegs => exact .of_withBlock h fun _ => .loadsBlock _ (State.readBytes_length ..)

/-- The same for an instruction of STEP(rnd). -/
theorem execGiven_effect {b : Byte} {i : Instr} {s t : State} (h : execGiven b i s = .next t) : Effect i s t := by
  unfold execGiven at h
  split at h
  · next x nn => cases h; exact .writesRegister _ (.inl ⟨nn, .inr (.inr rfl)⟩)
  · exact exec_effect h

end Sys2Proof.Machine
end

section
/-! The invariant is kept by every step and by every operation of the host (spec/10_state.md R24, R29,
spec/60_exceptions.md R240). -/

namespace Sys2Proof.Machine

/-- What an instruction meets on the post-fetch state of a machine that meets the invariant: PC is the address after an
instruction that was fetched inside memory (R71, R72). -/
structure State.PostFetch (s : State) : Prop where
  mem : s.MemWf
  two_le_pc : 2 ≤ s.pc.toNat
  pc_le : s.pc.toNat ≤ 0x1000
  stack : ∀ k : Fin 16, (s.stack[k.val]).toNat ≤ 0x1000
  fault : s.FaultWf

theorem postFetch_of_inv {s : State} (hinv : s.Inv) (hin : s.FetchInside) : (s.setPc (s.pc + 2)).PostFetch := by
  simp only [State.FetchInside, Config.memSize] at hin
  have hpc : (s.pc + 2).toNat = s.pc.toNat + 2 := by bv_omega
  exact ⟨hinv.mem, by rw [State.setPc_pc]; omega, by rw [State.setPc_pc]; omega, hinv.pc.2, hinv.fault⟩

/-- A state that differs from the post-fetch state in PC and in what the invariant does not mention meets the invariant
when its PC is in range. -/
theorem State.PostFetch.inv_of_pc {s t : State} (h : s.PostFetch) (hmem : t.mem = s.mem) (hparams : t.params = s.params)
    (hstack : t.stack = s.stack) (hfault : t.fault = s.fault) (hpc : t.pc.toNat ≤ 0x10FE) : t.Inv where
  mem := by rw [State.MemWf, State.unlisted, hparams, hmem]; exact h.mem
  pc := ⟨hpc, by rw [hstack]; exact h.stack⟩
  fault := by rw [State.FaultWf, hfault]; exact h.fault

/-- Going back to the fetch address stays in range. -/
theorem State.PostFetch.fetchPc_le {s : State} (h : s.PostFetch) : s.fetchPc.toNat ≤ 0x10FE := by
  have h2 := h.two_le_pc
  have hle := h.pc_le
  have hsub : (s.pc - 2).toNat = s.pc.toNat - 2 := BitVec.toNat_sub_of_le h2
  rw [State.fetchPc, hsub]
  omega

theorem State.PostFetch.skip_le {s : State} (h : s.PostFetch) (c : Bool) : (s.skipIf c).pc.toNat ≤ 0x10FE := by
  have hle := h.pc_le
  rw [State.skipIf_eq, State.setPc_pc]
  cases c
  · exact Nat.le_trans hle (by decide)
  · show (s.pc + 2).toNat ≤ 0x10FE
    bv_omega

/-- The slots after a push: the pushed return address, or the old ones (R25, R101). -/
theorem State.PostFetch.stack_push_le {s : State} (h : s.PostFetch) (hsp : s.sp.val < 16) (k : Fin 16) :
    ((s.push s.pc hsp).stack[k.val]).toNat ≤ 0x1000 := by
  rw [State.getElem_stack_push]
  split
  · exact h.pc_le
  · exact h.stack k

/-- Every effect of an instruction on the post-fetch state gives a state that meets the invariant. -/
theorem Effect.inv {i : Instr} {s t : State} (h : Effect i s t) (hs : s.PostFetch) : t.Inv := by
  have hpc : s.pc.toNat ≤ 0x10FE := Nat.le_trans hs.pc_le (by decide)
  cases h with
  | raises f hf => exact ⟨hs.mem, ⟨hs.fetchPc_le, hs.stack⟩, fun g hg => Option.some.inj hg ▸ hf⟩
  | skips c =>
    have hle := hs.skip_le c
    rw [State.skipIf_eq] at hle ⊢
    exact hs.inv_of_pc rfl rfl rfl rfl hle
  | jumps a ha => exact hs.inv_of_pc rfl rfl rfl rfl ha
  | waits => exact hs.inv_of_pc rfl rfl rfl rfl hs.fetchPc_le
  | @calls nnn _ hsp =>
    have hle : (zextAddr nnn).toNat ≤ 0x10FE := by rw [zextAddr_toNat]; omega
    exact ⟨hs.mem, ⟨hle, hs.stack_push_le hsp⟩, hs.fault⟩
  | returns hsp =>
    refine hs.inv_of_pc rfl rfl rfl rfl (Nat.le_trans (hs.stack ⟨s.sp.val - 1, by omega⟩) (by decide))
  | writesLogic r _ => rw [writeLogic_only_v]; exact hs.inv_of_pc rfl rfl rfl rfl hpc
  | loadsBlock bs _ => rw [loadRegBlock_only_v]; exact hs.inv_of_pc rfl rfl rfl rfl hpc
  | writesMemory bs _ hin =>
    have hmem := State.writeBytes_memWf bs hs.mem hin
    rw [State.writeBytes_eq] at hmem ⊢
    exact ⟨hmem, ⟨hpc, hs.stack⟩, hs.fault⟩
  | _ => exact hs.inv_of_pc rfl rfl rfl rfl hpc

/-- A fault taken outside any instruction keeps the invariant when its information is genuine. -/
theorem State.Inv.takeFault {s : State} (h : s.Inv) {f : Fault} (hf : faultGenuine f) : (takeFault f s).Inv :=
  ⟨h.mem, h.pc, fun _ hg => Option.some.inj hg ▸ hf⟩

/-- A cycle keeps the invariant, whatever runs its instructions, when they have no other effects. -/
theorem cycle_keeps_inv {run : Instr → State → Result} (heffect : ∀ {i s t}, run i s = .next t → Effect i s t)
    {s t : State} (hinv : s.Inv) (h : cycle run s = .next t) : t.Inv := by
  obtain ⟨-, ⟨f, hf, rfl⟩ | ⟨i, hin, -, hrun⟩⟩ := cycle_next h
  · exact hinv.takeFault hf
  · exact (heffect hrun).inv (postFetch_of_inv hinv hin)

/-- Settles O13: the bare step is the cycle of `exec`. -/
theorem stepKeepsTheInvariant : Obligations.StepKeepsTheInvariant :=
  fun _ _ hinv h => cycle_keeps_inv exec_effect hinv h

theorem State.resetWith_inv (p : Params) (n : Nat) : (State.resetWith p n).Inv where
  mem := State.resetWith_memWf p n
  pc := by
    refine ⟨(by decide : 0x200 ≤ 0x10FE), fun k => ?_⟩
    rw [State.resetWith_getElem_stack]
    exact Nat.zero_le _
  fault := fun _ hf => nomatch hf

/-- Settles O14 by `State.resetWith_inv`. -/
theorem resetMeetsTheInvariant : Obligations.ResetMeetsTheInvariant := State.resetWith_inv

theorem hostLoad_inv (bytes : List Byte) {s : State} (h : s.Inv) : (hostLoad bytes s).1.Inv := by
  by_cases hlong : Config.maxProgramLen < bytes.length
  · rw [hostLoad_rejected hlong]
    exact h
  · have hfits : Config.programStart + bytes.length ≤ Config.memSize := by
      simp only [Config.maxProgramLen, Config.programStart, Config.memSize] at hlong ⊢
      omega
    have hmem := State.writeBytes_memWf bytes h.mem hfits
    rw [hostLoad_accepted hlong]
    rw [State.writeBytes_eq] at hmem ⊢
    exact ⟨hmem, ⟨(by decide : 0x200 ≤ 0x10FE), h.pc.2⟩, h.fault⟩

theorem hostStep_inv (b : Byte) {s : State} (h : s.Inv) : (hostStep b s).1.Inv := by
  cases hf : s.fault with
  | some f => rw [hostStep_latched b hf]; exact h
  | none =>
    obtain ⟨t, hcycle, hstep⟩ := hostStep_running b hf
    rw [hstep]
    exact cycle_keeps_inv execGiven_effect h hcycle

theorem hostTickDelay_inv {s : State} (h : s.Inv) : (hostTickDelay s).Inv := by
  by_cases hdt : s.dt = 0
  · rw [hostTickDelay_stopped hdt]; exact h
  · rw [hostTickDelay_counting hdt]; exact ⟨h.mem, h.pc, h.fault⟩

theorem hostTickSound_inv {s : State} (h : s.Inv) : (hostTickSound s).1.Inv := by
  by_cases hst : s.st = 0
  · rw [hostTickSound_stopped hst]; exact h
  · rw [hostTickSound_counting hst]; exact ⟨h.mem, h.pc, h.fault⟩

theorem hostSetKey_inv (n : Nat) (p : Bool) {s : State} (h : s.Inv) : (hostSetKey n p s).1.Inv := by
  obtain hn | hn := Nat.lt_or_ge 15 n
  · rw [hostSetKey_invalid hn]; exact h
  · rw [hostSetKey_valid hn]; exact ⟨h.mem, h.pc, h.fault⟩

/-- Settles O15, operation by operation. -/
theorem hostOperationsKeepTheInvariant : Obligations.HostOperationsKeepTheInvariant := by
  intro op s h
  cases op with
  | reset => exact State.resetWith_inv ..
  | load bytes => exact hostLoad_inv bytes h
  | step b => exact hostStep_inv b h
  | tickDelay => exact hostTickDelay_inv h
  | tickSound => exact hostTickSound_inv h
  | setKey n p => exact hostSetKey_inv n p h
  | readFb => exact h

end Sys2Proof.Machine
end

section
/-! What an instruction leaves unchanged, component by component (spec/10_state.md sections 2 to 9), and the obligations on
the writers of each component. -/

namespace Sys2Proof.Machine

/-- No instruction writes a parameter (log entry 2). -/
theorem execGiven_params {b : Byte} {i : Instr} {s t : State} (h : execGiven b i s = .next t) :
    t.params = s.params := by
  obtain ⟨-, hparams⟩ | ⟨f, -, rfl⟩ := execGiven_fault_cases h
  · exact hparams
  · rfl

/-- No instruction but RND moves the count of draws (log entry 1). -/
theorem Effect.draws {i : Instr} {s t : State} (h : Effect i s t) (hi : ∀ x nn, i ≠ .rnd x nn) : t.draws = s.draws := by
  cases h with
  | drawsByte b => exact absurd rfl (hi _ _)
  | skips c => rw [State.skipIf_eq]; rfl
  | writesLogic r _ => rw [writeLogic_only_v]
  | loadsBlock bs _ => rw [loadRegBlock_only_v]
  | writesMemory bs _ _ => rw [State.writeBytes_eq]
  | _ => rfl

/-- STEP's RND takes the host's byte, so no instruction of STEP moves the count of draws (log entry 1). -/
theorem execGiven_draws {b : Byte} {i : Instr} {s t : State} (h : execGiven b i s = .next t) : t.draws = s.draws := by
  by_cases hi : ∃ x nn, i = .rnd x nn
  · obtain ⟨x, nn, rfl⟩ := hi
    cases h
    rfl
  · simp only [not_exists] at hi
    rw [execGiven_eq_exec b hi] at h
    exact (exec_effect h).draws hi

/-- STEP leaves the model's own fields alone (log entries 1, 2). -/
theorem hostStep_params_draws (b : Byte) (s : State) :
    (hostStep b s).1.params = s.params ∧ (hostStep b s).1.draws = s.draws := by
  cases hf : s.fault with
  | some f => rw [hostStep_latched b hf]; exact ⟨rfl, rfl⟩
  | none =>
    obtain ⟨t, hcycle, hstep⟩ := hostStep_running b hf
    rw [hstep]
    obtain ⟨-, ⟨f, -, rfl⟩ | ⟨i, -, -, hexec⟩⟩ := cycle_next hcycle
    · exact ⟨rfl, rfl⟩
    · exact ⟨(execGiven_params hexec).trans rfl, (execGiven_draws hexec).trans rfl⟩

theorem hostLoad_params_draws (bytes : List Byte) (s : State) :
    (hostLoad bytes s).1.params = s.params ∧ (hostLoad bytes s).1.draws = s.draws := by
  by_cases hlong : Config.maxProgramLen < bytes.length
  · rw [hostLoad_rejected hlong]; exact ⟨rfl, rfl⟩
  · rw [hostLoad_accepted hlong, State.writeBytes_eq]; exact ⟨rfl, rfl⟩

theorem hostTickDelay_params_draws (s : State) :
    (hostTickDelay s).params = s.params ∧ (hostTickDelay s).draws = s.draws := by
  by_cases hdt : s.dt = 0
  · rw [hostTickDelay_stopped hdt]; exact ⟨rfl, rfl⟩
  · rw [hostTickDelay_counting hdt]; exact ⟨rfl, rfl⟩

theorem hostTickSound_params_draws (s : State) :
    (hostTickSound s).1.params = s.params ∧ (hostTickSound s).1.draws = s.draws := by
  by_cases hst : s.st = 0
  · rw [hostTickSound_stopped hst]; exact ⟨rfl, rfl⟩
  · rw [hostTickSound_counting hst]; exact ⟨rfl, rfl⟩

theorem hostSetKey_params_draws (n : Nat) (p : Bool) (s : State) :
    (hostSetKey n p s).1.params = s.params ∧ (hostSetKey n p s).1.draws = s.draws := by
  obtain hn | hn := Nat.lt_or_ge 15 n
  · rw [hostSetKey_invalid hn]; exact ⟨rfl, rfl⟩
  · rw [hostSetKey_valid hn]; exact ⟨rfl, rfl⟩

/-- Settles O56: each effect of an instruction writes its own components, and the host's operations leave the model's
own fields alone, one by one. -/
theorem componentsHaveTheirWriters : Obligations.ComponentsHaveTheirWriters := by
  refine ⟨fun i s t h => ?instr, fun op s => ?host⟩
  case instr =>
    have heffect := exec_effect h
    cases heffect with
    | skips c => rw [State.skipIf_eq]; simp
    | writesLogic r _ => rw [writeLogic_only_v]; simp
    | writesResultFlag r c _ => rw [writeResultFlag_only_v]; simp
    | loadsBlock bs _ => rw [loadRegBlock_only_v]; simp
    | writesMemory bs hi _ => rw [State.writeBytes_eq]; simpa [WritesMemory] using fun _ => hi
    | writesIndex a hi => simpa [WritesIndex] using fun _ => hi
    | drawsSprite fb c => simp [State.setFlag]
    | _ => simp
  case host =>
    cases op with
    | reset => exact ⟨rfl, rfl⟩
    | load bytes => exact hostLoad_params_draws bytes s
    | step b => exact hostStep_params_draws b s
    | tickDelay => exact hostTickDelay_params_draws s
    | tickSound => exact hostTickSound_params_draws s
    | setKey n p => exact hostSetKey_params_draws n p s
    | readFb => exact ⟨rfl, rfl⟩

/-- A register write that changes VF has VF for its register. -/
theorem eq_vf_of_setV_changes {s : State} {x : Nibble} {b : Byte} (h : (s.setV x b).getV vf ≠ s.getV vf) : x = vf := by
  by_contra hx
  exact h (State.getV_setV_ne s b fun e => hx e.symm)

/-- A logic result changes VF only under the parameter or as its own register (R134). -/
theorem writeLogic_changes_vf {s : State} {x : Nibble} {r : Byte} (h : (writeLogic x r s).getV vf ≠ s.getV vf) :
    s.params.logicVfReset = true ∨ x = vf := by
  by_contra hno
  obtain ⟨hparam, hx⟩ := not_or.1 hno
  refine h ?_
  rw [State.getV_writeLogic, if_neg fun hc => hparam hc.1, if_neg fun e => hx e.symm]

/-- A block of x + 1 registers reaches VF only for x = F (R179). -/
theorem loadRegBlock_changes_vf {s : State} {x : Nibble} {bs : List Byte} (hlen : bs.length = x.toNat + 1)
    (h : (loadRegBlock s 0 bs).getV vf ≠ s.getV vf) : x = vf := by
  have hx := x.isLt
  have hvf : vf.toNat = 15 := rfl
  rw [getV_loadRegBlock _ _ _ _ (by omega)] at h
  split at h
  · next hin => exact BitVec.eq_of_toNat_eq (by omega)
  · exact absurd rfl h

/-- Settles O57: the effects that can change VF are the flag writes, and the register writes whose register is VF. -/
theorem vfHasItsWriters : Obligations.VfHasItsWriters := by
  intro i s t h hvf
  have heffect := exec_effect h
  cases heffect with
  | drawsSprite fb c => exact .inr (.inr (.inl ⟨_, _, _, rfl⟩))
  | @writesRegister _ _ x b hi =>
    obtain rfl := eq_vf_of_setV_changes hvf
    obtain ⟨nn, hi⟩ | hi | hi | hi := hi
    · exact .inr (.inr (.inr (.inr (.inl ⟨nn, hi⟩))))
    · exact .inr (.inr (.inr (.inr (.inr (.inl hi)))))
    · exact .inr (.inr (.inr (.inr (.inr (.inr (.inl hi))))))
    · exact .inr (.inr (.inr (.inr (.inr (.inr (.inr (.inl hi)))))))
  | drawsByte b =>
    obtain rfl := eq_vf_of_setV_changes hvf
    exact .inr (.inr (.inr (.inr (.inl ⟨_, .inr (.inr rfl)⟩))))
  | @writesLogic _ _ x r hi =>
    obtain ⟨y, hi⟩ := hi
    exact .inr (.inr (.inr (.inl ⟨x, y, hi, writeLogic_changes_vf hvf⟩)))
  | @writesResultFlag _ _ x r c hi =>
    obtain hi | hi := hi
    · exact .inl ⟨x, hi⟩
    · exact .inr (.inl ⟨x, hi⟩)
  | loadsBlock bs hlen =>
    obtain rfl := loadRegBlock_changes_vf hlen hvf
    exact .inr (.inr (.inr (.inr (.inr (.inr (.inr (.inr rfl)))))))
  | skips c => rw [State.skipIf_eq] at hvf; exact absurd rfl hvf
  | writesMemory bs _ _ => rw [State.writeBytes_eq] at hvf; exact absurd rfl hvf
  | _ => exact absurd rfl hvf

end Sys2Proof.Machine
end

section
/-! What no instruction can observe: ST, and the stack slots at or above SP (spec/10_state.md R25, R26). Every instruction
but LD ST, CALL and RET neither reads nor writes ST and the stack, so it does the same whatever they hold. -/

namespace Sys2Proof.Machine

/-- The state with another ST and other stack slots. -/
def State.withStStack (s : State) (b : Byte) (k : Vector Word 16) : State := { s with st := b, stack := k }

section
variable (b : Byte) (k : Vector Word 16)

theorem State.skipIf_withStStack (s : State) (c : Bool) :
    (s.withStStack b k).skipIf c = (s.skipIf c).withStStack b k := by
  cases c <;> rfl

theorem writeLogic_withStStack (x : Nibble) (r : Byte) (s : State) :
    writeLogic x r (s.withStStack b k) = (writeLogic x r s).withStStack b k := by
  by_cases h : s.params.logicVfReset = true
  · rw [writeLogic, writeLogic, if_pos h]; exact if_pos h
  · rw [writeLogic, writeLogic, if_neg h]; exact if_neg h

theorem State.writeBytes_withStStack (bs : List Byte) : ∀ (s : State) (a : Nat),
    (s.withStStack b k).writeBytes a bs = (s.writeBytes a bs).withStStack b k := by
  induction bs with
  | nil => intro s a; rfl
  | cons c bs ih => intro s a; exact ih (s.writeByte a c) (a + 1)

theorem loadRegBlock_withStStack (bs : List Byte) : ∀ (s : State) (n : Nat),
    loadRegBlock (s.withStStack b k) n bs = (loadRegBlock s n bs).withStStack b k := by
  induction bs with
  | nil => intro s n; rfl
  | cons c bs ih => intro s n; exact ih (s.setV (BitVec.ofNat 4 n) c) (n + 1)

theorem withBlock_withStStack {n : Nat} {s body t : State} (h : withBlock n s body = .next t) :
    withBlock n (s.withStStack b k) (body.withStStack b k) = .next (t.withStStack b k) := by
  rw [withBlock_eq] at h ⊢
  split at h
  · next hin => cases h; exact if_pos hin
  · next hout => cases h; exact if_neg hout

theorem withKey_withStStack {x : Nibble} {s t : State} {c : Nibble → Bool}
    (h : withKey x s (fun j => s.skipIf (c j)) = .next t) :
    withKey x (s.withStStack b k) (fun j => (s.withStStack b k).skipIf (c j)) = .next (t.withStStack b k) := by
  simp only [State.skipIf_withStStack]
  rw [withKey_eq] at h ⊢
  split at h
  · next hx => cases h; exact if_pos hx
  · next hx => cases h; exact if_neg hx

/-- An instruction other than LD ST, CALL and RET does the same on a state with another ST and other stack slots, and
keeps them. -/
theorem exec_withStStack {i : Instr} {s t : State} (hst : ∀ x, i ≠ .ldST x) (hcall : ∀ nnn, i ≠ .call nnn)
    (hret : i ≠ .ret) (h : exec i s = .next t) : exec i (s.withStStack b k) = .next (t.withStStack b k) := by
  cases i
  case ldST x => exact absurd rfl (hst x)
  case call nnn => exact absurd rfl (hcall nnn)
  case ret => exact absurd rfl hret
  case seImm | sneImm | seReg | sneReg => cases h; exact congrArg _ (State.skipIf_withStStack ..)
  case orReg | andReg | xorReg => cases h; exact congrArg _ (writeLogic_withStStack ..)
  case skp => exact withKey_withStStack b k (c := s.key) h
  case sknp => exact withKey_withStStack b k (c := fun j => !s.key j) h
  case drw => exact withBlock_withStStack b k h
  case ldB | storeRegs =>
    simp only [exec, execLdB, execStoreRegs] at h ⊢
    rw [State.writeBytes_withStStack]
    exact withBlock_withStStack b k h
  case loadRegs =>
    simp only [exec, execLoadRegs] at h ⊢
    rw [loadRegBlock_withStStack]
    exact withBlock_withStStack b k h
  case ldKey x =>
    cases hkey : s.firstKey with
    | some j =>
      rw [exec_ldKey_of_some x hkey] at h
      cases h
      exact exec_ldKey_of_some x hkey
    | none =>
      rw [exec_ldKey_of_none x hkey] at h
      cases h
      exact exec_ldKey_of_none x hkey
  all_goals cases h; rfl

end

/-- A CALL does not read ST (R26). -/
theorem exec_call_setST (b : Byte) {nnn : Addr} {s t : State} (h : exec (.call nnn) s = .next t) :
    exec (.call nnn) (s.setST b) = .next (t.setST b) := by
  by_cases hlt : s.sp.val < 16
  · rw [exec_call_of_lt nnn hlt] at h
    cases h
    exact exec_call_of_lt (s := s.setST b) nnn hlt
  · have hfull : s.sp = 16 := Fin.ext (show s.sp.val = 16 by omega)
    rw [exec_call_full nnn hfull] at h
    cases h
    exact exec_call_full (s := s.setST b) nnn hfull

/-- A RET does not read ST (R26). -/
theorem exec_ret_setST (b : Byte) {s t : State} (h : exec .ret s = .next t) :
    exec .ret (s.setST b) = .next (t.setST b) := by
  by_cases hpos : 0 < s.sp.val
  · rw [exec_ret_of_pos hpos] at h
    cases h
    exact exec_ret_of_pos (s := s.setST b) hpos
  · have hempty : s.sp = 0 := Fin.ext (Nat.eq_zero_of_not_pos hpos)
    rw [exec_ret_empty hempty] at h
    cases h
    exact exec_ret_empty (s := s.setST b) hempty

theorem exec_keeps_st {i : Instr} {s t : State} (h : exec i s = .next t) (hi : ∀ x, i ≠ .ldST x) : t.st = s.st := by
  obtain ⟨-, -, -, -, hst, -⟩ := componentsHaveTheirWriters.1 i s t h
  by_contra hne
  obtain ⟨x, hx⟩ := hst hne
  exact hi x hx

theorem exec_keeps_stack {i : Instr} {s t : State} (h : exec i s = .next t) (hi : ∀ nnn, i ≠ .call nnn) :
    t.stack = s.stack := by
  obtain ⟨-, hstack, -⟩ := componentsHaveTheirWriters.1 i s t h
  by_contra hne
  obtain ⟨nnn, hcall⟩ := hstack hne
  exact hi nnn hcall

theorem exec_keeps_sp {i : Instr} {s t : State} (h : exec i s = .next t) (hcall : ∀ nnn, i ≠ .call nnn)
    (hret : i ≠ .ret) : t.sp = s.sp := by
  obtain ⟨-, -, hsp, -⟩ := componentsHaveTheirWriters.1 i s t h
  by_contra hne
  obtain hi | ⟨nnn, hi⟩ := hsp hne
  · exact hret hi
  · exact hcall nnn hi

/-- Settles O59: LD ST overwrites ST, CALL and RET do not read it, and of the other instructions none observes ST or the
stack. -/
theorem noInstructionReadsST : Obligations.NoInstructionReadsST := by
  refine fun i s t b h => ⟨fun ⟨x, hx⟩ => ?overwrites, fun hst => ?keeps⟩
  case overwrites => subst hx; cases h; rfl
  case keeps =>
    by_cases hcall : ∃ nnn, i = .call nnn
    · obtain ⟨nnn, rfl⟩ := hcall
      exact exec_call_setST b h
    by_cases hret : i = .ret
    · subst hret
      exact exec_ret_setST b h
    have hcall := not_exists.1 hcall
    have ht : t.withStStack b s.stack = t.setST b := by rw [← exec_keeps_stack h hcall]; rfl
    exact (exec_withStStack b s.stack hst hcall hret h).trans (congrArg _ ht)

/-- The slots below SP, those that RET can still read, hold what the state's hold (R25). -/
def SameLiveSlots (k : Vector Word 16) (s : State) : Prop := ∀ j : Fin 16, j.val < s.sp.val → k[j.val] = s.stack[j.val]

/-- A CALL overwrites the lowest dead slot and makes it live, so the live slots agree after it too (R101). -/
theorem exec_call_deadSlots {nnn : Addr} {s t : State} {k : Vector Word 16} (hk : SameLiveSlots k s)
    (h : exec (.call nnn) s = .next t) :
    ∃ k', exec (.call nnn) { s with stack := k } = .next { t with stack := k' } ∧ SameLiveSlots k' t := by
  by_cases hlt : s.sp.val < 16
  · rw [exec_call_of_lt nnn hlt] at h
    cases h
    refine ⟨k.set s.sp.val s.pc hlt, exec_call_of_lt (s := { s with stack := k }) nnn hlt, fun j hj => ?_⟩
    have hj' : j.val < s.sp.val + 1 := hj
    rw [State.setPc_stack, State.getElem_stack_push, Vector.getElem_set]
    split
    · rfl
    · exact hk j (by omega)
  · have hfull : s.sp = 16 := Fin.ext (show s.sp.val = 16 by omega)
    rw [exec_call_full nnn hfull] at h
    cases h
    exact ⟨k, exec_call_full (s := { s with stack := k }) nnn hfull, hk⟩

/-- A RET reads the highest live slot and makes it dead (R102). -/
theorem exec_ret_deadSlots {s t : State} {k : Vector Word 16} (hk : SameLiveSlots k s) (h : exec .ret s = .next t) :
    ∃ k', exec .ret { s with stack := k } = .next { t with stack := k' } ∧ SameLiveSlots k' t := by
  by_cases hpos : 0 < s.sp.val
  · rw [exec_ret_of_pos hpos] at h
    cases h
    have htop : k[s.sp.val - 1] = s.stack[s.sp.val - 1] := hk ⟨s.sp.val - 1, by omega⟩ (Nat.sub_lt hpos Nat.one_pos)
    refine ⟨k, (exec_ret_of_pos (s := { s with stack := k }) hpos).trans ?_, fun j hj => hk j ?_⟩
    · simp only [State.popPc, htop]
    · exact Nat.lt_of_lt_of_le hj (Nat.sub_le ..)
  · have hempty : s.sp = 0 := Fin.ext (Nat.eq_zero_of_not_pos hpos)
    rw [exec_ret_empty hempty] at h
    cases h
    exact ⟨k, exec_ret_empty (s := { s with stack := k }) hempty, hk⟩

/-- Every instruction does the same on a state with other dead slots, and leaves a state that again differs in dead slots
only (R25). -/
theorem exec_deadSlots {i : Instr} {s t : State} {k : Vector Word 16} (hk : SameLiveSlots k s)
    (h : exec i s = .next t) :
    ∃ k', exec i { s with stack := k } = .next { t with stack := k' } ∧ SameLiveSlots k' t := by
  by_cases hcall : ∃ nnn, i = .call nnn
  · obtain ⟨nnn, rfl⟩ := hcall
    exact exec_call_deadSlots hk h
  by_cases hret : i = .ret
  · subst hret
    exact exec_ret_deadSlots hk h
  have hcall := not_exists.1 hcall
  refine ⟨k, ?_, ?_⟩
  · by_cases hst : ∃ x, i = .ldST x
    · obtain ⟨x, rfl⟩ := hst
      cases h
      rfl
    · have hst := not_exists.1 hst
      have ht : t.withStStack s.st k = { t with stack := k } := by rw [← exec_keeps_st h hst]; rfl
      exact (exec_withStStack s.st k hst hcall hret h).trans (congrArg _ ht)
  · rw [SameLiveSlots, exec_keeps_sp h hcall hret, exec_keeps_stack h hcall]
    exact hk

/-- Settles O60: the fetch and the decode read neither the stack nor SP, and the instruction is `exec_deadSlots`. -/
theorem deadSlotsAreUnobservable : Obligations.DeadSlotsAreUnobservable := by
  intro s s' t hs' hk h
  obtain ⟨k, rfl⟩ : ∃ k, s' = { s with stack := k } := ⟨_, hs'⟩
  have hrun : s.Running := (cycle_next h).1
  by_cases hin : s.FetchInside
  · cases hdec : decode s.wordAtPc with
    | none =>
      cases h.symm.trans (cycle_illegal exec hrun hin hdec)
      exact ⟨_, cycle_illegal exec (s := { s with stack := k }) hrun hin hdec, rfl, hk⟩
    | some i =>
      obtain ⟨k', hexec, hk'⟩ := exec_deadSlots (s := s.setPc (s.pc + 2)) hk ((cycle_runs exec hrun hin hdec).symm.trans h)
      exact ⟨_, (cycle_runs exec (s := { s with stack := k }) hrun hin hdec).trans hexec, rfl, hk'⟩
  · cases h.symm.trans (cycle_outside exec hrun hin)
    exact ⟨_, cycle_outside exec (s := { s with stack := k }) hrun hin, rfl, hk⟩

end Sys2Proof.Machine
end

section
/-! What a step runs (spec/30_encoding.md section 1), what it fetches after a store or a LOAD (spec/20_memory.md R60,
spec/70_reset_and_hazards.md R286), and the remaining rules on one operation each. -/

namespace Sys2Proof.Machine

/-- Settles O12: every instruction answers a next state, and so does a fetch or decode fault. -/
theorem runningMachineSteps : Obligations.RunningMachineSteps := fun _ hrun => cycle_answers hrun exec_answers

/-- Settles O6: the cycle runs the decoded instruction on the post-fetch state, whatever runs it, and STEP hands the
cycle's next state to the host. -/
theorem stepRunsTheDecodedInstruction : Obligations.StepRunsTheDecodedInstruction := by
  refine fun s i hrun hin hdec => ⟨cycle_runs exec hrun hin hdec, fun b => ?given⟩
  have hgiven : cycle (execGiven b) s = execGiven b i { s with pc := s.pc + 2 } :=
    cycle_runs (execGiven b) hrun hin hdec
  refine ⟨hgiven, fun hi => ?exec, fun t ht => hostStep_next (hgiven.trans ht)⟩
  case exec =>
    rw [execGiven_eq_exec b hi] at hgiven
    exact ⟨hgiven, fun t ht => hostStep_next (hgiven.trans ht)⟩

/-- Settles O20: the CALL's return address is in the slot the RET pops. -/
theorem callThenRetRestoresPc : Obligations.CallThenRetRestoresPc := by
  refine fun nnn s hlt => ⟨_, exec_call_of_lt nnn hlt, fun u hstack hsp => ?ret⟩
  have husp : u.sp.val = s.sp.val + 1 := congrArg Fin.val hsp
  have hsub : u.sp.val - 1 = s.sp.val := by omega
  have hslot : u.stack[s.sp.val] = s.pc := by
    rw [hstack]
    exact (s.getElem_stack_push s.pc hlt ⟨s.sp.val, hlt⟩).trans (if_pos rfl)
  refine ⟨_, exec_ret_of_pos (by omega), ?_, Fin.ext hsub⟩
  simp only [State.popPc_pc, hsub, hslot]

/-- Settles O33: STEP's RND writes one register, and the bare step's does so with the byte of its next draw, which it
counts. -/
theorem rndMasksTheRandomByte : Obligations.RndMasksTheRandomByte :=
  ⟨fun _ h => decode_FXB (p := 0xC) (fun _ _ _ => rfl) h,
    fun b nn x s => ⟨_, rfl, fun z => State.getV_setV s x z (b &&& nn), rfl⟩,
    fun nn x s => ⟨_, Config.rndByte s.draws, rfl, fun z => State.getV_setV s x z (Config.rndByte s.draws &&& nn), rfl⟩⟩

theorem memReadChecked_inside {a : Nat} (h : a < Config.memSize) (s : State) :
    memReadChecked s a = .ok (s.readByte a) := if_neg (Nat.not_le.2 h)

theorem memReadChecked_outside {a : Nat} (h : Config.memSize ≤ a) (s : State) :
    memReadChecked s a = .error (.memoryOutOfBounds a) := if_pos h

theorem memWriteChecked_inside {a : Nat} (h : a < Config.memSize) (s : State) (b : Byte) :
    memWriteChecked s a b = .ok (s.writeByte a b) := if_neg (Nat.not_le.2 h)

theorem memWriteChecked_outside {a : Nat} (h : Config.memSize ≤ a) (s : State) (b : Byte) :
    memWriteChecked s a b = .error (.memoryOutOfBounds a) := if_pos h

/-- Settles O37: inside memory the checked accesses are those of the byte laws, and outside both raise the address. -/
theorem memoryReadsBackWrites : Obligations.MemoryReadsBackWrites := by
  refine fun s a b => ⟨fun h => ?inside, fun h => ⟨memReadChecked_outside h s, memWriteChecked_outside h s b⟩⟩
  refine ⟨_, memWriteChecked_inside h s b, ?same, fun z hz => ?other, rfl⟩
  case same => rw [memReadChecked_inside h, State.readByte_writeByte, if_pos rfl]
  case other =>
    obtain hin | hout := Nat.lt_or_ge z Config.memSize
    · rw [memReadChecked_inside hin, memReadChecked_inside hin, State.readByte_writeByte, if_neg hz]
    · rw [memReadChecked_outside hout, memReadChecked_outside hout]

/-- Settles O50: the two cases of TICK_DELAY. -/
theorem tickDelayCountsDown : Obligations.TickDelayCountsDown := by
  intro s
  by_cases hzero : s.dt = 0
  · exact ⟨s, congrArg (·, HostResult.nothing) (hostTickDelay_stopped hzero), by simp [hzero], rfl⟩
  · exact ⟨_, congrArg (·, HostResult.nothing) (hostTickDelay_counting hzero), toNat_sub_one_byte hzero, rfl⟩

/-- Two states with the same memory and parameters read the same bytes (log entry 5). -/
theorem State.readByte_congr {s t : State} (hmem : t.mem = s.mem) (hparams : t.params = s.params) (a : Nat) :
    t.readByte a = s.readByte a := by
  rw [State.readByte, hmem, hparams, State.readByte]

/-- Settles O42: the block holds the registers by position, and the load reads them back from it. -/
theorem storeThenLoadRestoresRegisters : Obligations.StoreThenLoadRestoresRegisters := by
  intro x s hin
  obtain ⟨t, hstore, hblock, -, ht⟩ := (storeRegsWritesTheBlock.2 x s).1 hin
  refine ⟨t, hstore, fun u hmem hparams hi => ?_⟩
  have hui : u.i = s.i := hi.trans (by rw [ht])
  obtain ⟨r, hload, hread, -⟩ := (loadRegsReadsTheBlock.2 x u).1 (hui ▸ hin)
  refine ⟨r, hload, fun z hz => ?_⟩
  rw [hread, if_pos hz, State.readByte_congr hmem hparams, hui, hblock z hz]

/-- A running machine whose two bytes at PC are inside memory and decode to an instruction runs it (R56, R70). -/
theorem step_of_bytes {s : State} {hi lo : Byte} {i : Instr} (hrun : s.Running) (hin : s.FetchInside)
    (hhi : s.readByte s.pc.toNat = hi) (hlo : s.readByte (s.pc.toNat + 1) = lo)
    (hdec : decode (wordOfBytes hi lo) = some i) : step s = exec i { s with pc := s.pc + 2 } :=
  cycle_runs exec hrun hin (by rw [State.wordAtPc, hhi, hlo, hdec])

/-- Settles O43: the store's first two bytes are at the next PC. -/
theorem storedInstructionIsFetchedNext : Obligations.StoredInstructionIsFetchedNext := by
  intro x i s hrun hin hdec hi hpc hx hblock hnext
  obtain ⟨t, hexec, hbytes, -, ht⟩ := (storeRegsWritesTheBlock.2 x (s.setPc (s.pc + 2))).1 hblock
  have htpc : t.pc = s.pc + 2 := congrArg State.pc ht
  have hbase : t.pc.toNat = s.i.toNat := by rw [htpc, hi]
  have htin : t.FetchInside := by
    simp only [State.FetchInside, Config.memSize]
    omega
  have htrun : t.Running := (congrArg State.fault ht).trans hrun
  have hhi : t.readByte t.pc.toNat = s.getV 0x0 := hbase ▸ hbytes 0x0 (Nat.zero_le _)
  have hlo : t.readByte (t.pc.toNat + 1) = s.getV 0x1 := hbase ▸ hbytes 0x1 hx
  exact ⟨t, (cycle_runs exec hrun hin hdec).trans hexec, htpc, step_of_bytes htrun htin hhi hlo hnext⟩

/-- Settles O55: the image's first two bytes are at 0x200, where LOAD sets PC. -/
theorem loadedProgramRunsFirst : Obligations.LoadedProgramRunsFirst := by
  intro hi lo rest i s hlen hrun hdec
  have hfits : (hi :: lo :: rest).length ≤ 3584 := by
    simp only [List.length_cons]
    omega
  obtain ⟨t, hload, hpc, hbytes, -, ht⟩ := (loadCopiesTheProgram (hi :: lo :: rest) s).2 hfits
  have htrun : t.Running := (congrArg State.fault ht).trans hrun
  have htin : t.FetchInside := by rw [State.FetchInside, hpc]; decide
  have hhi : t.readByte t.pc.toNat = hi := hpc ▸ hbytes 0 hi rfl
  have hlo : t.readByte (t.pc.toNat + 1) = lo := hpc ▸ hbytes 1 lo rfl
  have hstep := step_of_bytes htrun htin hhi hlo hdec
  rw [hpc] at hstep
  rw [hload]
  exact hstep

end Sys2Proof.Machine
end

section
/-! The laws of the rasterizer (spec/43_display.md R202, R203): two draws at one place. -/

namespace Sys2Proof.Machine

/-- The cells a sprite's set bits land on (R201, R202). -/
def SpriteHits (x y n : Nibble) (s : State) (k : Fin 2048) : Prop :=
  ∃ r c, r < n.toNat ∧ c < 8 ∧ (s.readByte (s.i.toNat + r)).getLsbD (7 - c) = true ∧
    k.val = ((s.getV x).toNat + c) % 64 + 64 * (((s.getV y).toNat + r) % 32)

/-- A state that reads the same bytes, I and coordinates draws the same cells. -/
theorem SpriteHits.congr {x y n : Nibble} {s t : State} (hbyte : ∀ a, t.readByte a = s.readByte a) (hi : t.i = s.i)
    (hx : t.getV x = s.getV x) (hy : t.getV y = s.getV y) (k : Fin 2048) :
    SpriteHits x y n s k ↔ SpriteHits x y n t k := by
  simp only [SpriteHits, hbyte, hi, hx, hy]

/-- A byte that is not 0 has a set bit, counted from the left (R201). -/
theorem exists_set_bit {b : Byte} (h : b ≠ 0) : ∃ c, c < 8 ∧ b.getLsbD (7 - c) = true := by
  by_contra hno
  simp only [not_exists, not_and] at hno
  refine h (BitVec.eq_of_getLsbD_eq fun j hj => ?_)
  have hbit := hno (7 - j) (by omega)
  rw [show 7 - (7 - j) = j by omega] at hbit
  simpa using hbit

/-- A sprite with a byte that is not 0 lands on some cell (R202). -/
theorem SpriteHits.exists_of_byte {x y n : Nibble} {s : State}
    (h : ∃ r, r < n.toNat ∧ s.readByte (s.i.toNat + r) ≠ 0) : ∃ k, SpriteHits x y n s k := by
  obtain ⟨r, hr, hb⟩ := h
  obtain ⟨c, hc, hbit⟩ := exists_set_bit hb
  exact ⟨cellAt ((s.getV x).toNat + c) ((s.getV y).toNat + r), r, c, hr, hc, hbit, rfl⟩

/-- A sprite of zero bytes lands on no cell (R202). -/
theorem SpriteHits.none_of_bytes {x y n : Nibble} {s : State}
    (h : ∀ r, r < n.toNat → s.readByte (s.i.toNat + r) = 0) (k : Fin 2048) : ¬ SpriteHits x y n s k := by
  rintro ⟨r, c, hr, -, hbit, -⟩
  rw [h r hr] at hbit
  simp at hbit

/-- Settles O46: with x, y not F the first draw moves neither the sprite nor its place, so the second flips the same cells
back. -/
theorem rasterizerLaws : Obligations.RasterizerLaws := by
  intro x y n s hx hy hin
  obtain ⟨t, hexec, hflip, hkeep, -, hunlit, hother, ht⟩ :=
    (drwFlipsTheSpriteCells.2 x y n s (SpriteHits x y n s) fun _ => Iff.rfl).1 hin
  have hti : t.i = s.i := by rw [ht]
  have hbyte : ∀ a, t.readByte a = s.readByte a := State.readByte_congr (by rw [ht]) (by rw [ht])
  have hcells := SpriteHits.congr (n := n) hbyte hti (hother x hx) (hother y hy)
  obtain ⟨u, hexec', hflip', hkeep', hlit', hunlit', -⟩ :=
    (drwFlipsTheSpriteCells.2 x y n t (SpriteHits x y n s) hcells).1 (by rw [hti]; exact hin)
  refine ⟨t, u, hexec, hexec', ?restored, fun hblank => ⟨?firstDraw, fun hset => ?secondDraw, fun hzero => ?empty⟩,
    fun h63 hn hbit k hk => ?wraps⟩
  case restored =>
    refine Vector.ext fun j hj => ?_
    by_cases hhit : SpriteHits x y n s ⟨j, hj⟩
    · exact ((hflip' _ hhit).trans (congrArg _ (hflip _ hhit))).trans (Bool.not_not _)
    · exact (hkeep' _ hhit).trans (hkeep _ hhit)
  case firstDraw => exact hunlit fun k _ => hblank k
  case secondDraw =>
    obtain ⟨k, hhit⟩ := SpriteHits.exists_of_byte (x := x) (y := y) hset
    exact hlit' ⟨k, hhit, by rw [hflip k hhit, hblank k, Bool.not_false]⟩
  case empty => exact hunlit' fun k hhit => absurd hhit (SpriteHits.none_of_bytes hzero k)
  case wraps =>
    have hcolumn : k.val = ((s.getV x).toNat + 1) % 64 + 64 * (((s.getV y).toNat + 0) % 32) := by
      rw [h63, hk]
      omega
    exact hflip k ⟨0, 1, hn, by decide, hbit, hcolumn⟩

end Sys2Proof.Machine
end
